-- ==== Sys2Proof/Config.lean ====
section
/-! DEFINITION. The constants SRC fixes (00_scope.md R8) and the parameters SRC leaves open (00_scope.md R9), each at the
default the spec chose. Nothing here is state of the block (10_state.md R32). -/

namespace Sys2Proof.Config

/-- `ADDR_W`, the width of the branch-address operand: SRC says "arbitrary width"; the spec's default is 64
(R9, D4). DESIGN CHOICE (log 3), safe: every width of at least 32 gives the same behaviour. -/
abbrev addrW : Nat := 64

/-- `STAT_W`, the width of `missCount` and `totalCount`: SRC gives none; the spec's default is 64 (R9, D11).
DESIGN CHOICE (log 4), unsafe where a claim rests on the number 64. -/
abbrev statW : Nat := 64

/-- `POW2_MAX_EXP`, the largest exponent the table-size computation accepts: SRC gives none; the spec's default is 31
(R9, D16). DESIGN CHOICE (log 5), safe: a valid configuration asks for at most 30. -/
def pow2MaxExp : Nat := 31

/-- `CNT_PER_UNIT`, counters per storage unit (R8). -/
def cntPerUnit : Nat := 4

/-- `CNT_INIT`, "weakly taken" (R8). -/
def cntInit : Nat := 2

/-- The initial value of a storage unit: four counters of value `CNT_INIT` (20_memory.md R59). -/
def unitInit : BitVec 8 := 0xAA

/-- The scale of the ratio, a percentage (R8). -/
def ratioScale : Nat := 100

end Sys2Proof.Config
end

