-- ==== Sys2Proof/Word.lean ====
section
/-! DEFINITION. The words at the block's boundary: the outcome value (00_scope.md R13), the input ports the environment
drives (30_encoding.md R79) and the table's internal port (R87), each port at the width the spec gives it. -/

namespace Sys2Proof

/-- A storage unit `U[u]` (00_scope.md R8: `UNIT_W = 8`). -/
abbrev StorageUnit := BitVec 8

/-- `PredictionOutcome` (00_scope.md R13), the resolved outcome of a branch. -/
inductive PredictionOutcome where
  /-- `N` -/
  | notTaken
  /-- `T` -/
  | taken
deriving DecidableEq, Repr

/-- What the environment drives on the block's input ports during one step (30_encoding.md R79). -/
structure Ports where
  op : BitVec 3
  cfgIndexBits : BitVec 6
  cfgHistoryBits : BitVec 6
  addr : BitVec Config.addrW
  outcome : BitVec 1
  peekIndex : BitVec 33
deriving DecidableEq, Repr

/-- All input ports at 0; the operation code is then NOP's (30_encoding.md R80). -/
def Ports.zero : Ports :=
  { op := 0, cfgIndexBits := 0, cfgHistoryBits := 0, addr := 0, outcome := 0, peekIndex := 0 }

/-- What the predictor drives on the table's internal port (30_encoding.md R87). -/
structure TablePort where
  tOp : BitVec 1
  tIndex : BitVec 33
  tValue : BitVec 3
deriving DecidableEq, Repr

/-- An encoded operation: a word on the block's ports or a word on the table's internal port. The two ports have
codes of their own, so a code means something only together with its port. -/
inductive PortWord where
  | block (p : Ports)
  | table (t : TablePort)
deriving DecidableEq, Repr

end Sys2Proof
end

