-- ==== Sys2Proof/Syntax.lean ====
section
/-! DEFINITION. The operations, one constructor per row of spec/opcode_table.json. Operands are unbounded naturals
(00_scope.md R11, 30_encoding.md R87); the widths of the ports that carry them are checked in WellFormed. -/

namespace Sys2Proof

inductive Instr where
  /-- NOP (42_statistics.md R164). -/
  | nop
  /-- CONSTRUCT(ib, hb) (41_predictor_update.md R120). -/
  | construct (ib hb : Nat)
  /-- UPDATE(a, o) (41_predictor_update.md R130). -/
  | update (a : Nat) (o : PredictionOutcome)
  /-- STATS (42_statistics.md R160). -/
  | stats
  /-- RATIO (42_statistics.md R161). -/
  | ratio
  /-- PEEK(i) (42_statistics.md R163). -/
  | peek (i : Nat)
  /-- The reserved code `0b110` (30_encoding.md R81). -/
  | reserved6
  /-- The reserved code `0b111` (30_encoding.md R81). -/
  | reserved7
  /-- TBL_GET(i), internal to the block (40_table_ops.md R101). -/
  | tblGet (i : Nat)
  /-- TBL_SET(i, v), internal to the block (40_table_ops.md R104). -/
  | tblSet (i v : Nat)
deriving DecidableEq, Repr

end Sys2Proof
end

