-- ==== Sys2Proof/WellFormed.lean ====
section
/-! DEFINITION. When an operation can be presented: each operand fits the port that carries it (30_encoding.md R78,
R79, R87). An operand that fits its port may still be illegal for the operation (R82); that is the operation's business. -/

namespace Sys2Proof

/-- `n` can be carried by a port of `w` bits. -/
def fits (w n : Nat) : Bool := decide (n < 2 ^ w)

def Instr.wf : Instr → Bool
  | .nop => true
  | .construct ib hb => fits 6 ib && fits 6 hb
  | .update a _ => fits Config.addrW a
  | .stats => true
  | .ratio => true
  | .peek i => fits 33 i
  | .reserved6 => true
  | .reserved7 => true
  | .tblGet i => fits 33 i
  | .tblSet i v => fits 33 i && fits 3 v

/-- The environment can present this operation (30_encoding.md R80); TBL_GET and TBL_SET are internal to the block
(20_memory.md R64, 30_encoding.md R87). -/
def Instr.issuable : Instr → Bool
  | .nop => true
  | .construct _ _ => true
  | .update _ _ => true
  | .stats => true
  | .ratio => true
  | .peek _ => true
  | .reserved6 => true
  | .reserved7 => true
  | .tblGet _ => false
  | .tblSet _ _ => false

end Sys2Proof
end

