-- ==== Sys2Proof/Decode.lean ====
section
/-! DEFINITION. Decoding the ports into an operation (30_encoding.md R79, R80, R87) and the encoder. Decoding is total:
`op` alone selects the operation (R85), every code has a row in the table, and an input port that the operation
does not use is ignored (R79). The reserved codes decode to operations of their own, which the machine refuses (R81). -/

namespace Sys2Proof

/-- `N = 0`, `T = 1` (30_encoding.md R73). -/
def PredictionOutcome.bit : PredictionOutcome → BitVec 1
  | .notTaken => 0
  | .taken => 1

/-- The outcome of an outcome bit (30_encoding.md R73). -/
def outcomeOfBit (b : BitVec 1) : PredictionOutcome :=
  if b = 1 then .taken else .notTaken

/-- The operation the block's input ports select (30_encoding.md R80). -/
def decode (p : Ports) : Instr :=
  match p.op.toNat with
  | 0 => .nop
  | 1 => .construct p.cfgIndexBits.toNat p.cfgHistoryBits.toNat
  | 2 => .update p.addr.toNat (outcomeOfBit p.outcome)
  | 3 => .stats
  | 4 => .ratio
  | 5 => .peek p.peekIndex.toNat
  | 6 => .reserved6
  | _ => .reserved7

/-- The operation the table's internal port selects (30_encoding.md R87). -/
def decodeTable (t : TablePort) : Instr :=
  if t.tOp = 0 then .tblGet t.tIndex.toNat else .tblSet t.tIndex.toNat t.tValue.toNat

/-- Decoding on either port. -/
def decodePort : PortWord → Instr
  | .block p => decode p
  | .table t => decodeTable t

/-- The word of an operation on the port its row of the table names; the ports it does not use are driven 0. -/
def encode : Instr → PortWord
  | .nop => .block { Ports.zero with op := 0b000 }
  | .construct ib hb => .block { Ports.zero with
      op := 0b001, cfgIndexBits := BitVec.ofNat 6 ib, cfgHistoryBits := BitVec.ofNat 6 hb }
  | .update a o => .block { Ports.zero with
      op := 0b010, addr := BitVec.ofNat Config.addrW a, outcome := o.bit }
  | .stats => .block { Ports.zero with op := 0b011 }
  | .ratio => .block { Ports.zero with op := 0b100 }
  | .peek i => .block { Ports.zero with op := 0b101, peekIndex := BitVec.ofNat 33 i }
  | .reserved6 => .block { Ports.zero with op := 0b110 }
  | .reserved7 => .block { Ports.zero with op := 0b111 }
  | .tblGet i => .table { tOp := 0b0, tIndex := BitVec.ofNat 33 i, tValue := 0 }
  | .tblSet i v => .table { tOp := 0b1, tIndex := BitVec.ofNat 33 i, tValue := BitVec.ofNat 3 v }

/-- The input ports that present an operation the environment can issue; all 0 for an internal one. -/
def portsOf (i : Instr) : Ports :=
  match encode i with
  | .block p => p
  | .table _ => Ports.zero

/-- The ports of a word of spec/opcode_table.json that stands on port `op`: bits 2..0 are the code, and the operand
ports, which the table gives no bits (30_encoding.md R79: they are separate ports), are 0. -/
def portsOfTableWord (w : Nat) : Ports :=
  { Ports.zero with op := BitVec.ofNat 3 w }

/-- The operation read from a word numbered as spec/opcode_table.json numbers it, on port `op`. The table's rows
TBL_GET and TBL_SET stand on the internal port `t_op`, which no word given to the block reaches (20_memory.md R64);
their codes 0 and 1 are here NOP's and CONSTRUCT's (log 12). -/
def decodeTableWord (_nbits w : Nat) : Option Instr :=
  some (decode (portsOfTableWord w))

end Sys2Proof
end

