-- ==== Sys2Proof/Machine/State.lean ====
section
/-! DEFINITION. The state of the block (10_state.md R20), what it drives on its output ports (30_encoding.md R79), and what the
environment will present to it. Plain data: two states can be compared and a state can be written out. -/

namespace Sys2Proof.Machine

/-- The storage units that differ from their initial value 0xAA, by unit index, in one canonical form (`Memory.wf`):
indices strictly rising, no entry 0xAA. A unit that is not listed holds 0xAA (20_memory.md R59). -/
abbrev Memory := List Host.Cell

/-- The Saturating Counter Table (40_table_ops.md R100). It knows one number, its size, here in storage units
(`NUNITS`); the counters are two-bit fields of the units (10_state.md R29, R30). -/
structure Table where
  nunits : Nat
  units : Memory
deriving DecidableEq, Repr

/-- The constructed predictor: configuration registers (10_state.md R22 to R24), global history register (R25),
statistics (R26) and the counter table it owns (R29, R30, R37). -/
structure Predictor where
  indexBits : BitVec 6
  historyBits : BitVec 6
  indexMask : BitVec 32
  h : BitVec 32
  missCount : BitVec Config.statW
  totalCount : BitVec Config.statW
  table : Table
deriving DecidableEq, Repr

/-- The lifecycle register `phase` (10_state.md R21). -/
inductive Phase where
  | unconstructed
  | ready
  | faulted
deriving DecidableEq, Repr

/-- The block in each of its phases. An unconstructed block carries no table and no registers
(70_reset_and_hazards.md R210: "they do not exist yet"). A faulted block keeps what it held, frozen, and no operation reads it
(60_exceptions.md R187; log 10). -/
inductive Block where
  | unconstructed
  | ready (p : Predictor)
  | faulted (p : Predictor)
deriving DecidableEq, Repr

def Block.phase : Block → Phase
  | .unconstructed => .unconstructed
  | .ready _ => .ready
  | .faulted _ => .faulted

/-- What RATIO drives on port `ratio`: the exact rational, which is normative, and its default rendering, a binary64
bit pattern (42_statistics.md R161, R162; log 6). -/
structure RatioOut where
  exact : Rat
  rendered : BitVec 64
deriving DecidableEq, Repr

/-- The result ports (30_encoding.md R79, R87). A port that the last operation did not drive is absent. -/
structure Outputs where
  missCount : Option (BitVec Config.statW)
  totalCount : Option (BitVec Config.statW)
  ratio : Option RatioOut
  peekValue : Option (BitVec 2)
  tValueOut : Option (BitVec 2)
deriving DecidableEq, Repr

/-- No result port is driven. -/
def Outputs.idle : Outputs :=
  { missCount := none, totalCount := none, ratio := none, peekValue := none, tValueOut := none }

/-- The errors of the block, each with the info its `raise` carries (60_exceptions.md R180). No register keeps the
info. -/
inductive BlockError where
  | configError (ib hb : Nat)
  | tableIndexOutOfRange (index : Nat)
  | tableInvalidValue (value : Nat)
  | invalidArgument (exponent : Nat)
deriving DecidableEq, Repr

structure State where
  /-- `phase`, and with it the predictor where one exists. -/
  block : Block
  /-- `errCode` (10_state.md R36). -/
  errCode : BitVec 3
  /-- What the last operation drove on the result ports. -/
  out : Outputs
  /-- The MODEL's own field (log 2): the input-port values the environment presents at the coming steps, oldest first. -/
  pending : List Ports
deriving DecidableEq, Repr

/-- Reasons to stop that are no refusal: there are none. Every error of the block (60_exceptions.md R180) is taken, as a
next state; see `raise`. -/
inductive Fault where
deriving DecidableEq, Repr

/-- The spec gives the operation no meaning in this state (60_exceptions.md R192). All safe: the model stops. -/
inductive Refusal where
  /-- An operation without a meaning in the model. No arm of `exec` answers this. Safe. -/
  | notModelled (mnemonic : String)
  /-- UPDATE, STATS, RATIO, PEEK, TBL_GET or TBL_SET on an `Unconstructed` block (60_exceptions.md R192). Safe. -/
  | blockUnconstructed
  /-- UPDATE, STATS, RATIO, PEEK, TBL_GET or TBL_SET on a `Faulted` block (60_exceptions.md R186, R192). Safe. -/
  | blockFaulted
  /-- UPDATE when `totalCount = 2^STAT_W - 1` (60_exceptions.md R196). Safe. -/
  | statisticsFull
  /-- UPDATE when the held configuration is not valid, which no run reaches (93_implementation_defined.md U3,
  91_not_in_source.md N21; log 9). Safe. -/
  | invalidHeldConfiguration
  /-- The reserved codes `0b110` and `0b111`, in every phase (30_encoding.md R81). Safe. -/
  | reservedOperationCode
deriving DecidableEq, Repr

/-- Replace the block. -/
def State.withBlock (s : State) (b : Block) : State := { s with block := b }

/-- Write `errCode`. -/
def State.withErrCode (s : State) (c : BitVec 3) : State := { s with errCode := c }

/-- Drive the result ports. -/
def State.withOut (s : State) (o : Outputs) : State := { s with out := o }

/-- Replace what the environment will present. -/
def State.withPending (s : State) (ps : List Ports) : State := { s with pending := ps }

/-- The lifecycle register. -/
def State.phase (s : State) : Phase := s.block.phase

/-- Power-on (70_reset_and_hazards.md R210): unconstructed, no error, nothing driven, nothing presented. -/
def State.reset : State :=
  { block := .unconstructed, errCode := 0, out := Outputs.idle, pending := [] }

end Sys2Proof.Machine
end

