-- ==== Sys2Proof/Machine/Operands.lean ====
section
/-! DEFINITION. What the operations compute from their operands: the check of the configuration (00_scope.md R7), the
assembly of the table index (30_encoding.md R75 to R77), the effective address of a counter (40_table_ops.md R102) and the
history step (41_predictor_update.md R139). All on unbounded naturals, as 00_scope.md R11 says; a value is narrowed only where
it is written to a register. -/

namespace Sys2Proof.Machine

/-- `ValidConfig(ib, hb)` (00_scope.md R7). -/
def validConfig (ib hb : Nat) : Bool :=
  decide (16 ≤ ib) && decide (ib ≤ 32) && decide (hb ≤ 32) && decide (hb ≤ ib)

/-- `indexMask` for a configuration (41_predictor_update.md R121). -/
def maskOf (ib : Nat) : Nat := 2 ^ ib - 1

/-- Sub-step 1, `a1 = a & indexMask` (41_predictor_update.md R131). -/
def Predictor.truncatedAddress (p : Predictor) (a : Nat) : Nat := a &&& p.indexMask.toNat

/-- `t3` of sub-step 2: the history masked, shifted to the top of the index, masked again, in exactly this order
(41_predictor_update.md R132, R133). -/
def Predictor.foldedHistory (p : Predictor) : Nat :=
  let t1 := p.h.toNat &&& p.indexMask.toNat
  let t2 := t1 <<< (p.indexBits.toNat - p.historyBits.toNat)
  t2 &&& p.indexMask.toNat

/-- The hashed index `a2` (41_predictor_update.md R131, R132): the fold is skipped when `historyBits = 0`. -/
def Predictor.hashedIndex (p : Predictor) (a : Nat) : Nat :=
  if p.historyBits.toNat = 0 then p.truncatedAddress a
  else p.truncatedAddress a ^^^ p.foldedHistory

/-- `row` of a hashed index (41_predictor_update.md R134). -/
def rowOf (a2 : Nat) : Nat := a2 / 4

/-- `col` of a hashed index (41_predictor_update.md R134). -/
def colOf (a2 : Nat) : Nat := a2 % 4

/-- The logical index UPDATE hands to the table, `4*row + col` (41_predictor_update.md R134, 90_conflicts.md C7). -/
def Predictor.selectedCounter (p : Predictor) (a : Nat) : Nat :=
  4 * rowOf (p.hashedIndex a) + colOf (p.hashedIndex a)

/-- Unit index of a logical index (40_table_ops.md R102). -/
def unitOf (i : Nat) : Nat := i / 4

/-- Bit offset of a logical index inside its unit, `2 * s` (40_table_ops.md R102, 20_memory.md R51). -/
def offsetOf (i : Nat) : Nat := 2 * (i % 4)

/-- The bit an outcome shifts into the history (30_encoding.md R72, R73). -/
def outcomeBit (o : PredictionOutcome) : Nat := o.bit.toNat

/-- The history step (41_predictor_update.md R139): age by one place, enter the outcome at bit `historyBits - 1`;
skipped when `historyBits = 0`. -/
def shiftHistory (hb : Nat) (o : PredictionOutcome) (h : Nat) : Nat :=
  if hb = 0 then h else (h >>> 1) ||| (outcomeBit o <<< (hb - 1))

end Sys2Proof.Machine
end

