-- ==== Sys2Proof/Machine/Flags.lean ====
section
/-! DEFINITION. The two predicates of an UPDATE (10_state.md R28: computed, never stored), the saturating counter
(41_predictor_update.md R137) and the ratio with its rendering (42_statistics.md R161, R162). -/

namespace Sys2Proof.Machine

/-- `Pred(cnt)` (41_predictor_update.md R135). -/
def impliedPrediction (cnt : Nat) : PredictionOutcome :=
  if 2 ≤ cnt then .taken else .notTaken

/-- The comparator, as SRC spells it per outcome (41_predictor_update.md R136). -/
def isMiss (o : PredictionOutcome) (cnt : Nat) : Bool :=
  match o with
  | .notTaken => decide (2 ≤ cnt)
  | .taken => decide (cnt ≤ 1)

/-- The saturating counter (41_predictor_update.md R137); `cnt - 1` is 0 at `cnt = 0`. -/
def nextCounter (o : PredictionOutcome) (cnt : Nat) : Nat :=
  match o with
  | .notTaken => max (cnt - 1) 0
  | .taken => min (cnt + 1) 3

/-- The misprediction percentage `Q`, an exact rational, real division (42_statistics.md R161). -/
def ratioOf (miss total : Nat) : Rat :=
  if total = 0 then 0 else mkRat (Config.ratioScale * miss) total

/-- `floor(log2(n / d))` for positive `n` and `d`. -/
def floorLog2 (n d : Nat) : Int :=
  let e : Int := (n.log2 : Int) - (d.log2 : Int)
  if d * 2 ^ e.toNat ≤ n * 2 ^ (-e).toNat then e else e - 1

/-- `n / d` rounded to the nearest integer, ties to even. -/
def roundHalfEven (n d : Nat) : Nat :=
  if 2 * (n % d) < d then n / d
  else if d < 2 * (n % d) then n / d + 1
  else n / d + n / d % 2

/-- The default `RATIO_FMT` (42_statistics.md R162, D17): the binary64 bit pattern nearest to `q`, ties to even. The layout
(sign, 11 bits of exponent biased by 1023, 52 bits of fraction) and the rounding are IEEE 754's. PRESUMED (log 6), unsafe.
Right for 0 and for the range a ratio of two 64-bit counts can have; subnormal, overflowing and negative values do not
occur there. A significand that rounds up to `2^53` carries into the exponent by the addition. -/
def renderBinary64 (q : Rat) : BitVec 64 :=
  let n := q.num.toNat
  if n = 0 then 0 else
    let e := floorLog2 n q.den
    let k := 52 - e
    let m := roundHalfEven (n * 2 ^ k.toNat) (q.den * 2 ^ (-k).toNat)
    BitVec.ofNat 64 ((e + 1022).toNat * 2 ^ 52 + m)

/-- What RATIO drives for a pair of counts (42_statistics.md R161: `ratio = render(Q)`). -/
def ratioOutOf (miss total : Nat) : RatioOut :=
  { exact := ratioOf miss total, rendered := renderBinary64 (ratioOf miss total) }

end Sys2Proof.Machine
end

