-- ==== Sys2Proof/Machine/Ops.lean ====
section
/-! DEFINITION. The shared operations: reading and writing storage units (00_scope.md R12), the table's operations
(40_table_ops.md), raising an error (60_exceptions.md R186), building a predictor (41_predictor_update.md R120 to R123), the phase
check (60_exceptions.md R192) and taking the next presentation. -/

namespace Sys2Proof.Machine

/-! ### Storage units -/

/-- `MemRead(u, 1)` (00_scope.md R12): the storage unit `U[u]`. -/
def Memory.read : Memory → Nat → StorageUnit
  | [], _ => Config.unitInit
  | (a, b) :: m, u => if u = a then b else Memory.read m u

/-- `MemWrite(u, 1, v)` (00_scope.md R12): replace `U[u]`. A unit written back to its initial value is no longer listed. -/
def Memory.write : Memory → Nat → StorageUnit → Memory
  | [], u, v => if v = Config.unitInit then [] else [(u, v)]
  | (a, b) :: m, u, v =>
    if u < a then (if v = Config.unitInit then (a, b) :: m else (u, v) :: (a, b) :: m)
    else if u = a then (if v = Config.unitInit then m else (u, v) :: m)
    else (a, b) :: Memory.write m u v

/-- The canonical form from index `lo` on. -/
def Memory.wfFrom : Nat → Memory → Bool
  | _, [] => true
  | lo, (a, b) :: m => decide (lo ≤ a) && decide (b ≠ Config.unitInit) && Memory.wfFrom (a + 1) m

/-- The canonical form: unit indices strictly rising, no entry equal to what an unlisted unit holds. -/
def Memory.wf (m : Memory) : Bool := Memory.wfFrom 0 m

/-- The storage units the block lists: none before a construction (70_reset_and_hazards.md R210). -/
def State.memory (s : State) : Memory :=
  match s.block with
  | .unconstructed => []
  | .ready p => p.table.units
  | .faulted p => p.table.units

/-! ### The table (40_table_ops.md) -/

/-- `NCOUNTERS = 4 * NUNITS` (00_scope.md R8, 40_table_ops.md R106). -/
def Table.ncounters (t : Table) : Nat := Config.cntPerUnit * t.nunits

/-- The field at bit offset `sh` of a unit (20_memory.md R51). -/
def fieldAt (unit : StorageUnit) (sh : Nat) : Nat := (unit.toNat >>> sh) &&& 3

/-- The unit with the field at bit offset `sh` replaced by `v`: mask-clear, then mask-write (20_memory.md R55). -/
def withFieldAt (unit : StorageUnit) (sh v : Nat) : StorageUnit :=
  BitVec.ofNat 8 ((unit.toNat &&& (0xFF - (3 <<< sh))) ||| (v <<< sh))

/-- The logical view `C[i]` (10_state.md R29), without the bounds check. -/
def Table.counter (t : Table) (i : Nat) : Nat := fieldAt (t.units.read (unitOf i)) (offsetOf i)

/-- The read-modify-write of one unit (20_memory.md R55), without the checks. -/
def Table.put (t : Table) (i v : Nat) : Table :=
  { t with units := t.units.write (unitOf i) (withFieldAt (t.units.read (unitOf i)) (offsetOf i) v) }

/-- `TblGet(i)` (40_table_ops.md R101): the check comes before the access. -/
def Table.get (t : Table) (i : Nat) : Except BlockError Nat :=
  if t.ncounters ≤ i then .error (.tableIndexOutOfRange i) else .ok (t.counter i)

/-- `TblSet(i, v)` (40_table_ops.md R104): the index is checked before the value, both before the access. -/
def Table.set (t : Table) (i v : Nat) : Except BlockError Table :=
  if t.ncounters ≤ i then .error (.tableIndexOutOfRange i)
  else if 3 < v then .error (.tableInvalidValue v)
  else .ok (t.put i v)

/-- `TblInit(n)` (40_table_ops.md R106): every unit holds its initial value, so none is listed. -/
def Table.init (n : Nat) : Table := { nunits := n, units := [] }

/-! ### Errors (60_exceptions.md) -/

/-- The code of an error (60_exceptions.md R180). -/
def BlockError.code : BlockError → BitVec 3
  | .configError _ _ => 1
  | .tableIndexOutOfRange _ => 2
  | .tableInvalidValue _ => 3
  | .invalidArgument _ => 4

/-- The block after a fatal table error: `Faulted`, what it held frozen (60_exceptions.md R186, R187). -/
def Block.fault : Block → Block
  | .unconstructed => .unconstructed
  | .ready p => .faulted p
  | .faulted p => .faulted p

/-- The block an error leaves: `Unconstructed` for the two construction errors, `Faulted` for the two table errors
(60_exceptions.md R186). -/
def BlockError.blockAfter (e : BlockError) (b : Block) : Block :=
  match e with
  | .configError _ _ => .unconstructed
  | .tableIndexOutOfRange _ => b.fault
  | .tableInvalidValue _ => b.fault
  | .invalidArgument _ => .unconstructed

/-- Taking an error (60_exceptions.md R186): the operation that raised writes `errCode` and the phase and nothing
else (R187, D14), and drives no result port (log 11). There is no handler and no return (R188). -/
def raise (e : BlockError) (s : State) : State :=
  { s with block := e.blockAfter s.block, errCode := e.code, out := Outputs.idle }

/-! ### Construction (41_predictor_update.md) -/

/-- The size computation and its guard (41_predictor_update.md R122). -/
def powerOfTwo (e : Nat) : Except BlockError Nat :=
  if Config.pow2MaxExp < e then .error (.invalidArgument e) else .ok (2 ^ e)

/-- A fresh predictor of a given configuration and table size (41_predictor_update.md R121, R123; 10_state.md R35). -/
def freshPredictor (ib hb n : Nat) : Predictor :=
  { indexBits := BitVec.ofNat 6 ib
    historyBits := BitVec.ofNat 6 hb
    indexMask := BitVec.ofNat 32 (maskOf ib)
    h := 0
    missCount := 0
    totalCount := 0
    table := Table.init n }

/-- What CONSTRUCT builds or raises: the configuration is validated before the size is computed
(41_predictor_update.md R120, 60_exceptions.md R189). -/
def buildPredictor (ib hb : Nat) : Except BlockError Predictor :=
  if validConfig ib hb then (powerOfTwo (ib - 2)).map (freshPredictor ib hb)
  else .error (.configError ib hb)

/-! ### Running an operation -/

/-- The end of an operation that leaves the block alone and drives the result ports `o`. -/
def State.drive (s : State) (o : Outputs) : Host.Outcome State Fault Refusal := .next (s.withOut o)

/-- `require phase = Ready` (60_exceptions.md R192): refused otherwise. -/
def whenReady (s : State) (k : Predictor → Host.Outcome State Fault Refusal) :
    Host.Outcome State Fault Refusal :=
  match s.block with
  | .unconstructed => .refused .blockUnconstructed
  | .ready p => k p
  | .faulted _ => .refused .blockFaulted

/-- The end of an operation whose table access may raise. -/
def orRaise {α : Type} (s : State) (r : Except BlockError α) (k : α → Host.Outcome State Fault Refusal) :
    Host.Outcome State Fault Refusal :=
  match r with
  | .error e => .next (raise e s)
  | .ok a => k a

/-- The largest value of the statistics registers, `2^STAT_W - 1` (60_exceptions.md R196). -/
def statMax : Nat := 2 ^ Config.statW - 1

/-- What stands on the input ports at the next step. When the environment presents nothing, the ports are 0, which is
a NOP: "a step in which the environment asks nothing of the block" (42_statistics.md R164). DEDUCED (log 2). -/
def State.presented (s : State) : Ports :=
  match s.pending with
  | [] => Ports.zero
  | p :: _ => p

/-- The presentation is consumed by the step that sees it. -/
def State.consume (s : State) : State := s.withPending s.pending.tail

/-- Place a presentation where the next step takes it. -/
def State.present (s : State) (p : Ports) : State := s.withPending (p :: s.pending)

/-- The output port `phase`, always driven (30_encoding.md R79). -/
def State.phasePort (s : State) : BitVec 2 :=
  match s.phase with
  | .unconstructed => 0b00
  | .ready => 0b01
  | .faulted => 0b10

/-- The output port `err`, always driven (30_encoding.md R79, R86). -/
def State.errPort (s : State) : BitVec 3 := s.errCode

end Sys2Proof.Machine
end

