-- ==== Sys2Proof/Machine/Predict.lean ====
section
/-! DEFINITION. The Gshare Predictor's operations CONSTRUCT and UPDATE (41_predictor_update.md). -/

namespace Sys2Proof.Machine

/-- CONSTRUCT(ib, hb) (41_predictor_update.md R120), allowed in every phase. Whatever predictor existed is discarded
first (R124), and an error leaves the block unconstructed. -/
def execConstruct (ib hb : Nat) (s : State) : Host.Outcome State Fault Refusal :=
  orRaise (s.withBlock .unconstructed) (buildPredictor ib hb) fun p =>
    .next { s with block := .ready p, errCode := 0, out := Outputs.idle }

/-- The history and statistics steps of an UPDATE that read the counter value `cnt` and left the table `t`
(41_predictor_update.md R139, R140). -/
def Predictor.afterUpdate (p : Predictor) (o : PredictionOutcome) (cnt : Nat) (t : Table) : Predictor :=
  { p with
    table := t
    h := BitVec.ofNat 32 (shiftHistory p.historyBits.toNat o p.h.toNat)
    totalCount := p.totalCount + 1
    missCount := if isMiss o cnt then p.missCount + 1 else p.missCount }

/-- UPDATE(a, o) (41_predictor_update.md R130), one atomic transition (20_memory.md R62). The index is formed with the old
history; the miss is decided on the old counter; the result ports stay idle: "returns no per-call result" (R142). -/
def execUpdate (a : Nat) (o : PredictionOutcome) (s : State) : Host.Outcome State Fault Refusal :=
  whenReady s fun p =>
    if p.totalCount.toNat = statMax then .refused .statisticsFull
    else if validConfig p.indexBits.toNat p.historyBits.toNat = false then .refused .invalidHeldConfiguration
    else
      orRaise s (p.table.get (p.selectedCounter a)) fun cnt =>
        orRaise s (p.table.set (p.selectedCounter a) (nextCounter o cnt)) fun t =>
          .next { s with block := .ready (p.afterUpdate o cnt t), out := Outputs.idle }

end Sys2Proof.Machine
end

