-- ==== Sys2Proof/Machine/ReadOnly.lean ====
section
/-! DEFINITION. The read-only operations NOP, STATS, RATIO and PEEK (42_statistics.md). -/

namespace Sys2Proof.Machine

/-- NOP (42_statistics.md R164): allowed in every phase, asks nothing, so no result port is driven. -/
def execNop (s : State) : Host.Outcome State Fault Refusal :=
  s.drive Outputs.idle

/-- STATS (42_statistics.md R160). -/
def execStats (s : State) : Host.Outcome State Fault Refusal :=
  whenReady s fun p =>
    s.drive { Outputs.idle with missCount := some p.missCount, totalCount := some p.totalCount }

/-- RATIO (42_statistics.md R161). -/
def execRatio (s : State) : Host.Outcome State Fault Refusal :=
  whenReady s fun p =>
    s.drive { Outputs.idle with ratio := some (ratioOutOf p.missCount.toNat p.totalCount.toNat) }

/-- PEEK(i) (42_statistics.md R163). -/
def execPeek (i : Nat) (s : State) : Host.Outcome State Fault Refusal :=
  whenReady s fun p =>
    orRaise s (p.table.get i) fun v =>
      s.drive { Outputs.idle with peekValue := some (BitVec.ofNat 2 v) }

end Sys2Proof.Machine
end

