-- ==== Sys2Proof/Machine/Reserved.lean ====
section
/-! DEFINITION. The reserved operation codes (30_encoding.md R81): refused in every phase (60_exceptions.md R192). -/

namespace Sys2Proof.Machine

/-- Op code `0b110` (30_encoding.md R81). -/
def execReserved6 (_s : State) : Host.Outcome State Fault Refusal := .refused .reservedOperationCode

/-- Op code `0b111` (30_encoding.md R81). -/
def execReserved7 (_s : State) : Host.Outcome State Fault Refusal := .refused .reservedOperationCode

end Sys2Proof.Machine
end

