-- ==== Sys2Proof/Machine/TableOps.lean ====
section
/-! DEFINITION. The table's operations as operations of their own on the internal port (40_table_ops.md R101, R104). UPDATE and
PEEK issue the same `Table.get` and `Table.set` from inside (R107). An error is fatal however the operation was issued
(60_exceptions.md R182, R183). Outside `Ready` there is no table to use (R186, R192; log 13). -/

namespace Sys2Proof.Machine

/-- TBL_GET(i) (40_table_ops.md R101). -/
def execTblGet (i : Nat) (s : State) : Host.Outcome State Fault Refusal :=
  whenReady s fun p =>
    orRaise s (p.table.get i) fun v =>
      s.drive { Outputs.idle with tValueOut := some (BitVec.ofNat 2 v) }

/-- TBL_SET(i, v) (40_table_ops.md R104). -/
def execTblSet (i v : Nat) (s : State) : Host.Outcome State Fault Refusal :=
  whenReady s fun p =>
    orRaise s (p.table.set i v) fun t =>
      .next { s with block := .ready { p with table := t }, out := Outputs.idle }

end Sys2Proof.Machine
end

