-- ==== Sys2Proof/Machine/Dispatch.lean ====
section
/-! DEFINITION. One arm per operation. -/

namespace Sys2Proof.Machine

def exec (i : Instr) (s : State) : Host.Outcome State Fault Refusal :=
  match i with
  | .nop => Sys2Proof.Machine.execNop s
  | .construct ib hb => Sys2Proof.Machine.execConstruct ib hb s
  | .update a o => Sys2Proof.Machine.execUpdate a o s
  | .stats => Sys2Proof.Machine.execStats s
  | .ratio => Sys2Proof.Machine.execRatio s
  | .peek k => Sys2Proof.Machine.execPeek k s
  | .reserved6 => Sys2Proof.Machine.execReserved6 s
  | .reserved7 => Sys2Proof.Machine.execReserved7 s
  | .tblGet k => Sys2Proof.Machine.execTblGet k s
  | .tblSet k v => Sys2Proof.Machine.execTblSet k v s

end Sys2Proof.Machine
end

