-- ==== Sys2Proof/Machine/Step.lean ====
section
/-! DEFINITION. One step: the operation the environment presents is decoded and run (00_scope.md R6). -/

namespace Sys2Proof.Machine

/-- One step of the block: take the presentation, decode it, run it. -/
def step (s : State) : Host.Outcome State Fault Refusal :=
  exec (decode s.presented) s.consume

/-- `s` with a word of spec/opcode_table.json (port `op`) presented to the next step, the operand ports 0. It stands for
the environment's presenting that operation (log 2). -/
def State.withFetchWord (s : State) (_nbits w : Nat) : State := s.present (portsOfTableWord w)

end Sys2Proof.Machine
end

