-- ==== Sys2Proof/Safety.lean ====
section
/-! DEFINITION. What holds of every state a run reaches (10_state.md R31 and the lifecycle rules), what a successful run is
(60_exceptions.md R186), and the predictor on its logical view, without packing, masks or registers, as the reference a run
is held against. -/

namespace Sys2Proof.Machine

/-- The invariants of a `Ready` block (10_state.md R31), with the table's canonical form and size. -/
structure Predictor.Inv (p : Predictor) : Prop where
  /-- (I-c) -/
  config : validConfig p.indexBits.toNat p.historyBits.toNat = true
  /-- (I-e) -/
  mask : p.indexMask.toNat = 2 ^ p.indexBits.toNat - 1
  /-- (I-d) -/
  history : p.h.toNat < 2 ^ p.historyBits.toNat
  /-- (I-b) -/
  statistics : p.missCount.toNat ≤ p.totalCount.toNat
  /-- (I-a) -/
  counters : ∀ i, p.table.counter i ≤ 3
  /-- `NUNITS = 2^(indexBits-2)` (10_state.md R30). -/
  size : p.table.nunits = 2 ^ (p.indexBits.toNat - 2)
  /-- Equal tables are equal data. -/
  canonical : p.table.units.wf = true
  /-- No unit outside the table is listed (20_memory.md R58). -/
  populated : ∀ c ∈ p.table.units, c.1 < p.table.nunits

/-- The invariant of the machine. `errCode` is 0 while `Ready`; an unconstructed block is at power-on or after ConfigError;
a faulted block is after TableIndexOutOfRange; TableInvalidValue and InvalidArgument do not occur
(60_exceptions.md R197). Nothing is said of what a faulted block holds (R187). -/
def State.Inv (s : State) : Prop :=
  match s.block with
  | .unconstructed => s.errCode = 0 ∨ s.errCode = 1
  | .ready p => s.errCode = 0 ∧ p.Inv
  | .faulted _ => s.errCode = 2

/-- The premise of every claim about a run's result (60_exceptions.md R186): no error was raised. -/
def State.successful (s : State) : Bool := decide (s.phase = .ready) && decide (s.errCode = 0)

/-- The block is `Ready` with predictor `p`, its invariant holds, and an UPDATE is not refused (60_exceptions.md R196). -/
structure UpdateEnabled (s : State) (p : Predictor) : Prop where
  ready : s.block = .ready p
  inv : p.Inv
  notFull : p.totalCount.toNat < statMax

/-- The operations that `totalCount` counts (42_statistics.md R166). -/
def isUpdate : Instr → Bool
  | .nop => false
  | .construct _ _ => false
  | .update _ _ => true
  | .stats => false
  | .ratio => false
  | .peek _ => false
  | .reserved6 => false
  | .reserved7 => false
  | .tblGet _ => false
  | .tblSet _ _ => false

/-- `n` steps, as the host runs them. -/
def runSteps (n : Nat) (s : State) : Host.Outcome State Fault Refusal := Sys2Proof.core.run n s

/-! ### The logical view -/

/-- One trace event: a branch address and its resolved outcome (00_scope.md R15). -/
abbrev Event := Nat × PredictionOutcome

/-- A gshare predictor as its rules describe it, on plain numbers. Not a state of the machine: a reference to compare
with. -/
structure Gshare where
  counters : Nat → Nat
  history : Nat
  misses : Nat
  total : Nat

/-- After construction (10_state.md R35). -/
def Gshare.fresh : Gshare := { counters := fun _ => 2, history := 0, misses := 0, total := 0 }

/-- The counter an address selects, without masks (41_predictor_update.md R144). -/
def Gshare.index (ib hb : Nat) (g : Gshare) (a : Nat) : Nat :=
  (a % 2 ^ ib) ^^^ (if hb = 0 then 0 else g.history * 2 ^ (ib - hb))

/-- One event (41_predictor_update.md R136, R137, R139, R140), by cases on the outcome. -/
def Gshare.event (ib hb : Nat) (g : Gshare) (e : Event) : Gshare :=
  let i := g.index ib hb e.1
  let c := g.counters i
  match e.2 with
  | .taken =>
    { counters := fun j => if j = i then (if c < 3 then c + 1 else 3) else g.counters j
      history := if hb = 0 then 0 else g.history / 2 + 2 ^ (hb - 1)
      misses := if c < 2 then g.misses + 1 else g.misses
      total := g.total + 1 }
  | .notTaken =>
    { counters := fun j => if j = i then (if 0 < c then c - 1 else 0) else g.counters j
      history := if hb = 0 then 0 else g.history / 2
      misses := if c < 2 then g.misses else g.misses + 1
      total := g.total + 1 }

/-- A whole trace, in order (70_reset_and_hazards.md R214). -/
def Gshare.run (ib hb : Nat) (es : List Event) : Gshare := es.foldl (Gshare.event ib hb) Gshare.fresh

/-- The presentation of one event (70_reset_and_hazards.md R212, 30_encoding.md R83). -/
def eventPorts (e : Event) : Ports := portsOf (.update e.1 e.2)

/-- The environment presents a whole run next: CONSTRUCT, the events in trace order, then `rest`
(70_reset_and_hazards.md R212, R220). Every address fits the port. -/
structure PresentsRun (s : State) (ib hb : Nat) (es : List Event) (rest : List Ports) : Prop where
  configuration : validConfig ib hb = true
  addresses : ∀ e ∈ es, e.1 < 2 ^ Config.addrW
  notFull : es.length ≤ statMax
  schedule : s.pending = portsOf (.construct ib hb) :: (es.map eventPorts ++ rest)

/-- The value of a binary64 bit pattern that stands for a finite number that is not negative; none otherwise. IEEE 754's
layout, PRESUMED (log 6). -/
def binary64Value (w : BitVec 64) : Option Rat :=
  let e : Nat := w.toNat / 2 ^ 52
  let f : Nat := w.toNat % 2 ^ 52
  if 2047 ≤ e then none
  else if e = 0 then some (mkRat f (2 ^ 1074))
  else some (((2 ^ 52 + f : Nat) : Rat) * (2 : Rat) ^ ((e : Int) - 1075))

end Sys2Proof.Machine
end

