-- ==== Sys2Proof/Certificates/Slice0/Obligations.lean ====
section
/-! DEFINITION. What is claimed of the model. Each docstring names the rules of spec/ a statement formalises or rests on. "D<n>"
is a decision the spec itself took (92_eei_decisions.md); a statement that rests on one is derived. -/

open Sys2Proof Sys2Proof.Machine

/-! ### Encoding -/

/-- Port values written out from 30_encoding.md section 3 and the programs of 95_test_vectors.md decode to the operations
they stand for. The codes are the spec's decision D2. -/
def Obligations.SpecWordsDecodeToTheirOperations : Prop :=
  decodePort (.block ⟨0b000, 0, 0, 0, 0, 0⟩) = .nop ∧
  decodePort (.block ⟨0b001, 17, 1, 0, 0, 0⟩) = .construct 17 1 ∧
  decodePort (.block ⟨0b010, 0, 0, 0x1ABCD, 1, 0⟩) = .update 0x1ABCD .taken ∧
  decodePort (.block ⟨0b010, 0, 0, 0x0ABCD, 0, 0⟩) = .update 0x0ABCD .notTaken ∧
  decodePort (.block ⟨0b011, 0, 0, 0, 0, 0⟩) = .stats ∧
  decodePort (.block ⟨0b100, 0, 0, 0, 0, 0⟩) = .ratio ∧
  decodePort (.block ⟨0b101, 0, 0, 0, 0, 0x20000⟩) = .peek 0x20000 ∧
  decodePort (.block ⟨0b110, 0, 0, 0, 0, 0⟩) = .reserved6 ∧
  decodePort (.block ⟨0b111, 0, 0, 0, 0, 0⟩) = .reserved7 ∧
  decodePort (.table ⟨0b0, 65536, 0⟩) = .tblGet 65536 ∧
  decodePort (.table ⟨0b1, 0, 4⟩) = .tblSet 0 4

/-- Decoding an encoded operation gives it back, with every operand at every value its port carries, on both ports
(30_encoding.md section 3: R79, R80, R87; D2). -/
def Obligations.DecodeOfEncodeIsTheOperation : Prop :=
  ∀ i : Instr, i.wf = true → decodePort (encode i) = i

/-- The other direction: whatever stands on the input ports decodes to an operation that can be presented and that the
environment may issue (20_memory.md R64); encoding it gives the same `op` and the same values on the ports the operation
uses, and the ports it does not use do not matter (30_encoding.md R79). -/
def Obligations.EncodeOfDecodeKeepsTheUsedPorts : Prop :=
  ∀ p : Ports,
    (decode p).wf = true ∧ (decode p).issuable = true ∧
    ∃ q : Ports, encode (decode p) = .block q ∧ decode q = decode p ∧ q.op = p.op ∧
      (p.op = 1 → q.cfgIndexBits = p.cfgIndexBits ∧ q.cfgHistoryBits = p.cfgHistoryBits) ∧
      (p.op = 2 → q.addr = p.addr ∧ q.outcome = p.outcome) ∧
      (p.op = 5 → q.peekIndex = p.peekIndex)

/-- A step runs the operation the environment presents, and consumes the presentation; when nothing is presented the
step is a NOP. The schedule is the model's own (log 2). -/
def Obligations.StepRunsThePresentedOperation : Prop :=
  (∀ (s : State) (i : Instr) (p : Ports) (rest : List Ports), i.wf = true → encode i = .block p →
    s.pending = p :: rest → step s = exec i { s with pending := rest }) ∧
  (∀ (s : State) (p : Ports) (rest : List Ports), s.pending = p :: rest →
    step s = exec (decode p) { s with pending := rest }) ∧
  (∀ s : State, s.pending = [] → step s = exec .nop s)

/-! ### Power-on and the phases -/

/-- Power-on (70_reset_and_hazards.md R210, D7): unconstructed, no error, `phase` port `0b00`, no result port driven; the
operations that would read a register or the table are refused. -/
def Obligations.PowerOnHoldsNoPredictor : Prop :=
  State.reset.block = .unconstructed ∧ State.reset.errCode = 0 ∧ State.reset.phasePort = 0b00 ∧
  State.reset.out = Outputs.idle ∧ State.reset.memory = [] ∧
  (∀ a o, exec (.update a o) State.reset = .refused .blockUnconstructed) ∧
  exec .stats State.reset = .refused .blockUnconstructed ∧
  exec .ratio State.reset = .refused .blockUnconstructed ∧
  (∀ i, exec (.peek i) State.reset = .refused .blockUnconstructed)

/-- Outside `Ready` every operation except CONSTRUCT and NOP is refused (60_exceptions.md R186, R192; D7), the internal
table operations among them, since there is no table to use (log 13). -/
def Obligations.OutsideReadyOnlyConstructAndNopRun : Prop :=
  ∀ (s : State) (i : Instr), s.phase ≠ .ready → i ≠ .nop → (∀ ib hb, i ≠ .construct ib hb) →
    ∃ r, exec i s = .refused r

/-- The reserved codes are refused in every phase (30_encoding.md R81, 60_exceptions.md R192; D19). -/
def Obligations.ReservedCodesAreRefused : Prop :=
  ∀ s : State, exec .reserved6 s = .refused .reservedOperationCode ∧
    exec .reserved7 s = .refused .reservedOperationCode

/-- NOP is allowed in every phase, changes no state of the block and drives nothing (42_statistics.md R164; D2). -/
def Obligations.NopCompletesWithoutEffect : Prop :=
  ∀ s : State, exec .nop s = .next { s with out := Outputs.idle }

/-- The way out of `Unconstructed` or `Faulted` is a successful CONSTRUCT, and it clears `errCode`
(60_exceptions.md R188; D8). -/
def Obligations.OnlyConstructMakesTheBlockReady : Prop :=
  ∀ s t : State, step s = .next t → s.phase ≠ .ready → t.phase = .ready →
    t.errCode = 0 ∧ ∃ ib hb, decode s.presented = .construct ib hb ∧ validConfig ib hb = true

/-- The ports `phase` and `err` are always driven and follow the state; `0b11` is never shown (30_encoding.md R79; D2, D7). -/
def Obligations.PhaseAndErrPortsFollowTheState : Prop :=
  ∀ s : State, s.errPort = s.errCode ∧ s.phasePort ≠ 0b11 ∧
    (s.phasePort = 0b00 ↔ s.block = .unconstructed) ∧
    (s.phasePort = 0b01 ↔ ∃ p, s.block = .ready p) ∧
    (s.phasePort = 0b10 ↔ ∃ p, s.block = .faulted p)

/-! ### CONSTRUCT -/

/-- A valid configuration is built in every phase, with the reset values of 10_state.md R35 (70_reset_and_hazards.md R211).
The value 0 of `h` is the spec's decision D9 (log 8); `phase` and `errCode` are D7 and D13. -/
def Obligations.ConstructCompletesWithTheResetValues : Prop :=
  ∀ (s : State) (ib hb : Nat), validConfig ib hb = true →
    ∃ p : Predictor,
      exec (.construct ib hb) s = .next { s with block := .ready p, errCode := 0, out := Outputs.idle } ∧
      p.indexBits.toNat = ib ∧ p.historyBits.toNat = hb ∧ p.indexMask.toNat = 2 ^ ib - 1 ∧
      p.h = 0 ∧ p.missCount = 0 ∧ p.totalCount = 0 ∧
      p.table.nunits = 2 ^ (ib - 2) ∧ p.table.ncounters = 2 ^ ib ∧
      (∀ u, u < 2 ^ (ib - 2) → p.table.units.read u = 0xAA) ∧
      (∀ i, i < 2 ^ ib → p.table.get i = .ok 2) ∧ p.Inv

/-- An invalid configuration raises ConfigError: no predictor, `errCode = 1`, `Unconstructed`, whatever the block was, and
from there everything but CONSTRUCT and NOP is refused (60_exceptions.md R181; D6, D13). -/
def Obligations.ConstructRefusesToBuildAnInvalidConfiguration : Prop :=
  ∀ (s : State) (ib hb : Nat), (ib < 16 ∨ 32 < ib ∨ 32 < hb ∨ ib < hb) →
    ∃ t : State,
      exec (.construct ib hb) s = .next t ∧
      t = { s with block := .unconstructed, errCode := 1, out := Outputs.idle } ∧ t.errPort = 1 ∧
      ∀ i, i ≠ .nop → (∀ ib' hb', i ≠ .construct ib' hb') → ∃ r, exec i t = .refused r

/-- The power-of-two guard of the table size is dead after validation, and it does guard: an exponent above
POW2_MAX_EXP raises InvalidArgument (41_predictor_update.md R122, 60_exceptions.md R184; D16, log 5). -/
def Obligations.SizeGuardIsDeadAfterValidation : Prop :=
  (∀ ib hb, validConfig ib hb = true → powerOfTwo (ib - 2) = .ok (2 ^ (ib - 2))) ∧
  (∀ e, Config.pow2MaxExp < e → powerOfTwo e = .error (.invalidArgument e)) ∧
  (∀ (s t : State) (ib hb : Nat), exec (.construct ib hb) s = .next t → t.errCode ≠ 4)

/-- Once a CONSTRUCT, of any operands, is presented, nothing of the earlier run influences the later one: the runs of
two blocks with the same schedule are the same from there on (41_predictor_update.md R124, R149; D8). -/
def Obligations.RunAfterConstructForgetsThePast : Prop :=
  ∀ (s s' : State) (p : Ports) (rest : List Ports) (n : Nat), p.op = 1 →
    s.pending = p :: rest → s'.pending = p :: rest → runSteps (n + 1) s = runSteps (n + 1) s'

/-! ### UPDATE -/

/-- UPDATE hashes the address with the old history (mask, shift, mask, XOR), and moves the selected counter one step
toward the outcome with saturation; no other counter, storage unit, size or configuration register changes
(41_predictor_update.md R130 to R134, R137, R138). That the table is unchanged in the two saturated cases is what R138 marks
derived (from R105(c)); that no result port is driven rests on the ports of R79, D2 (log 11). -/
def Obligations.UpdateMovesExactlyTheSelectedCounter : Prop :=
  ∀ (s : State) (p : Predictor) (a : Nat) (o : PredictionOutcome), UpdateEnabled s p →
    let m := p.indexMask.toNat
    let a1 := a &&& m
    let a2 := if p.historyBits.toNat = 0 then a1
      else a1 ^^^ (((p.h.toNat &&& m) <<< (p.indexBits.toNat - p.historyBits.toNat)) &&& m)
    let row := a2 / 4
    let col := a2 % 4
    let cnt := ((p.table.units.read row).toNat >>> (2 * col)) &&& 3
    ∃ q : Predictor,
      exec (.update a o) s = .next { s with block := .ready q, out := Outputs.idle } ∧
      p.table.get (4 * row + col) = .ok cnt ∧
      q.table.get (4 * row + col) =
        .ok (match o with | .notTaken => max (cnt - 1) 0 | .taken => min (cnt + 1) 3) ∧
      (∀ j, j ≠ 4 * row + col → q.table.get j = p.table.get j) ∧
      (∀ u, u ≠ row → q.table.units.read u = p.table.units.read u) ∧
      ((cnt = 0 ∧ o = .notTaken ∨ cnt = 3 ∧ o = .taken) → q.table = p.table) ∧
      q.table.nunits = p.table.nunits ∧ q.indexBits = p.indexBits ∧
      q.historyBits = p.historyBits ∧ q.indexMask = p.indexMask

/-- The comparator uses the counter as it was before this UPDATE: `missCount` grows exactly on a miss, `totalCount` on every
UPDATE, both by one (41_predictor_update.md R136, R140). The last clause, `missCount <= totalCount` afterwards, is what R140 marks
derived; that no result port is driven rests on the ports of R79, D2 (log 11). -/
def Obligations.UpdateCountsEveryEventAndEveryMiss : Prop :=
  ∀ (s : State) (p : Predictor) (a : Nat) (o : PredictionOutcome), UpdateEnabled s p →
    let cnt := p.table.counter (p.selectedCounter a)
    ∃ q : Predictor,
      exec (.update a o) s = .next { s with block := .ready q, out := Outputs.idle } ∧
      q.totalCount.toNat = p.totalCount.toNat + 1 ∧
      (o = .notTaken → q.missCount.toNat = p.missCount.toNat + (if 2 ≤ cnt then 1 else 0)) ∧
      (o = .taken → q.missCount.toNat = p.missCount.toNat + (if cnt ≤ 1 then 1 else 0)) ∧
      (impliedPrediction cnt = o ↔ q.missCount = p.missCount) ∧
      q.missCount.toNat ≤ q.totalCount.toNat

/-- The history step: the oldest outcome is discarded, every remembered one moves a place toward bit 0, the new one enters
at bit `historyBits - 1` (41_predictor_update.md R139). That the OR is an addition and that `h < 2^historyBits` afterwards is what
R139 marks derived; that `h` is 0 without history rests, through the invariant, on the initial history 0, D9 (log 8); that no
result port is driven rests on the ports of R79, D2 (log 11). -/
def Obligations.UpdateShiftsTheOutcomeIntoTheTop : Prop :=
  ∀ (s : State) (p : Predictor) (a : Nat) (o : PredictionOutcome), UpdateEnabled s p →
    let hb := p.historyBits.toNat
    ∃ q : Predictor,
      exec (.update a o) s = .next { s with block := .ready q, out := Outputs.idle } ∧
      (0 < hb →
        q.h.toNat = (p.h.toNat >>> 1) ||| (if o = .taken then 1 <<< (hb - 1) else 0) ∧
        q.h.toNat = p.h.toNat / 2 + (if o = .taken then 2 ^ (hb - 1) else 0) ∧
        q.h.getLsbD (hb - 1) = decide (o = .taken) ∧
        ∀ k, k + 1 < hb → q.h.getLsbD k = p.h.getLsbD (k + 1)) ∧
      (hb = 1 → q.h.toNat = (if o = .taken then 1 else 0)) ∧
      (hb = 0 → q.h = p.h ∧ q.h = 0) ∧
      q.h.toNat < 2 ^ hb

/-- Only the low `indexBits` bits of the address take part, so an address may be truncated to them and two addresses that
agree in them are the same address to the block, in every state whose mask register is the one CONSTRUCT computes
(41_predictor_update.md R131). -/
def Obligations.UpdateSeesOnlyTheLowAddressBits : Prop :=
  ∀ (s : State) (p : Predictor) (a b : Nat) (o : PredictionOutcome), s.block = .ready p →
    p.indexMask.toNat = 2 ^ p.indexBits.toNat - 1 →
    exec (.update a o) s = exec (.update (a &&& p.indexMask.toNat) o) s ∧
    (a % 2 ^ p.indexBits.toNat = b % 2 ^ p.indexBits.toNat → exec (.update a o) s = exec (.update b o) s)

/-- Neither table call of an UPDATE can raise: the selected counter lies in the table and the value written is a counter
value (41_predictor_update.md R148). -/
def Obligations.UpdateTableAccessesAreInRange : Prop :=
  ∀ (p : Predictor) (a : Nat) (o : PredictionOutcome), p.Inv →
    p.selectedCounter a < 2 ^ p.indexBits.toNat ∧ p.table.ncounters = 2 ^ p.indexBits.toNat ∧
    ∃ cnt t, p.table.get (p.selectedCounter a) = .ok cnt ∧ cnt ≤ 3 ∧
      p.table.set (p.selectedCounter a) (nextCounter o cnt) = .ok t

/-- The table's bounds check is kept in UPDATE: where the selected counter is not in the table, which the invariant excludes,
the UPDATE raises TableIndexOutOfRange: `Faulted`, code 2, nothing driven
(41_predictor_update.md R148, 60_exceptions.md R182, R186; D7, D13, D14). -/
def Obligations.UpdateRaisesWhereTheTableIsTooSmall : Prop :=
  ∀ (s : State) (p : Predictor) (a : Nat) (o : PredictionOutcome), s.block = .ready p →
    p.totalCount.toNat ≠ statMax → validConfig p.indexBits.toNat p.historyBits.toNat = true →
    p.table.ncounters ≤ p.selectedCounter a →
    ∃ t : State, exec (.update a o) s = .next t ∧ t.phase = .faulted ∧ t.errCode = 2 ∧ t.out = Outputs.idle ∧
      t.pending = s.pending

/-- Both masks of the fold are the identity where the invariant holds (41_predictor_update.md R144, a derived fact; it rests on
the initial history 0, D9, log 8, through the invariant). -/
def Obligations.MasksOfTheFoldAreTheIdentity : Prop :=
  ∀ (p : Predictor) (a : Nat), p.Inv →
    p.h.toNat &&& p.indexMask.toNat = p.h.toNat ∧
    (0 < p.historyBits.toNat →
      p.foldedHistory = p.h.toNat <<< (p.indexBits.toNat - p.historyBits.toNat)) ∧
    p.selectedCounter a = (a % 2 ^ p.indexBits.toNat) ^^^
      (p.h.toNat <<< (p.indexBits.toNat - p.historyBits.toNat))

/-- When two (address, history) pairs of one configuration select the same counter (41_predictor_update.md R146, derived). -/
def Obligations.AliasingCriterion : Prop :=
  ∀ (p q : Predictor) (a b : Nat), p.Inv → q.Inv → q.indexBits = p.indexBits → q.historyBits = p.historyBits →
    (p.selectedCounter a = q.selectedCounter b ↔
      (a ^^^ b) &&& p.indexMask.toNat =
        (p.h.toNat ^^^ q.h.toNat) <<< (p.indexBits.toNat - p.historyBits.toNat))

/-- With `historyBits = 0` the history register is neither read nor written by an UPDATE: whatever it holds, the rest of the
result is the same and it still holds it (41_predictor_update.md R145; only the first clause of the SRC property,
90_conflicts.md C5). -/
def Obligations.WithoutHistoryTheRegisterIsInert : Prop :=
  ∀ (s : State) (p : Predictor) (a : Nat) (o : PredictionOutcome), UpdateEnabled s p → p.historyBits = 0 →
    ∃ q : Predictor, ∀ g : BitVec 32,
      exec (.update a o) { s with block := .ready { p with h := g } } =
        .next { s with block := .ready { q with h := g }, out := Outputs.idle }

/-- With `historyBits = 0`, UPDATEs of different counters commute, to the last bit of the state
(70_reset_and_hazards.md R214, derived). -/
def Obligations.UpdatesOfDifferentCountersCommuteWithoutHistory : Prop :=
  ∀ (s : State) (p : Predictor) (a b : Nat) (o o' : PredictionOutcome), UpdateEnabled s p →
    p.totalCount.toNat + 1 < statMax → p.historyBits = 0 → p.selectedCounter a ≠ p.selectedCounter b →
    ∃ s₁ s₂ t : State,
      exec (.update a o) s = .next s₁ ∧ exec (.update b o') s₁ = .next t ∧
      exec (.update b o') s = .next s₂ ∧ exec (.update a o) s₂ = .next t

/-- The UPDATE that would take `totalCount` past `2^STAT_W - 1` is refused (60_exceptions.md R196; D11, log 4). -/
def Obligations.UpdateIsRefusedWhenTheStatisticsAreFull : Prop :=
  ∀ (s : State) (p : Predictor) (a : Nat) (o : PredictionOutcome), s.block = .ready p →
    p.totalCount.toNat = 2 ^ Config.statW - 1 → exec (.update a o) s = .refused .statisticsFull

/-! ### The read-only operations -/

/-- STATS drives the two counters as they stand and changes nothing (42_statistics.md R160; D2, D18). -/
def Obligations.StatsDrivesTheTwoCounters : Prop :=
  ∀ (s : State) (p : Predictor), s.block = .ready p →
    exec .stats s = .next { s with
      out := { missCount := some p.missCount, totalCount := some p.totalCount, ratio := none,
               peekValue := none, tValueOut := none } }

/-- RATIO drives the exact percentage, real division, 0 for no events, and its rendering, and changes nothing; between 0
and 100 where `missCount <= totalCount` (42_statistics.md R161). The rendering is D17 (log 6). -/
def Obligations.RatioDrivesTheExactPercentage : Prop :=
  ∀ (s : State) (p : Predictor), s.block = .ready p →
    ∃ r : RatioOut,
      exec .ratio s = .next { s with
        out := { missCount := none, totalCount := none, ratio := some r, peekValue := none, tValueOut := none } } ∧
      (p.totalCount.toNat = 0 → r.exact = 0) ∧
      (p.totalCount.toNat ≠ 0 → r.exact * (p.totalCount.toNat : Rat) = 100 * (p.missCount.toNat : Rat)) ∧
      r.rendered = renderBinary64 r.exact ∧
      (p.missCount.toNat ≤ p.totalCount.toNat → 0 ≤ r.exact ∧ r.exact ≤ 100) ∧
      (p.missCount.toNat = p.totalCount.toNat → p.totalCount.toNat ≠ 0 → r.exact = 100)

/-- The rendering of the ratio is a finite binary64 number, none is nearer to the exact ratio, and where another is as near
the one with the even significand is taken (42_statistics.md R162; D17, log 6: IEEE 754 is from outside SRC). -/
def Obligations.RenderedRatioIsNearestBinary64 : Prop :=
  ∀ (s t : State) (p : Predictor) (r : RatioOut), s.block = .ready p → p.Inv → exec .ratio s = .next t →
    t.out.ratio = some r →
    ∃ v : Rat, binary64Value r.rendered = some v ∧
      ∀ (w : BitVec 64) (x : Rat), binary64Value w = some x →
        |v - r.exact| ≤ |x - r.exact| ∧
        (|v - r.exact| = |x - r.exact| → x ≠ v → r.rendered.toNat % 2 = 0)

/-- PEEK inside the table drives the counter and changes nothing (42_statistics.md R163; D18). -/
def Obligations.PeekDrivesTheCounter : Prop :=
  ∀ (s : State) (p : Predictor) (i : Nat), s.block = .ready p → i < p.table.ncounters →
    ∃ v : BitVec 2,
      exec (.peek i) s = .next { s with
        out := { missCount := none, totalCount := none, ratio := none, peekValue := some v, tValueOut := none } } ∧
      v.toNat = ((p.table.units.read (i / 4)).toNat >>> (2 * (i % 4))) &&& 3

/-- PEEK outside the table is fatal: TableIndexOutOfRange, code 2, `Faulted`; after it everything but CONSTRUCT and NOP is
refused, and a valid CONSTRUCT recovers (60_exceptions.md R182, R186, R188; D7, D8, D13, D14, D18). The port `phase` then shows
`0b10` (30_encoding.md R79; D2). That a PEEK that raises drives no result port is the model's choice (log 11). -/
def Obligations.PeekOutsideTheTableFaultsTheBlock : Prop :=
  ∀ (s : State) (p : Predictor) (i : Nat), s.block = .ready p → p.table.ncounters ≤ i →
    ∃ t : State,
      exec (.peek i) s = .next t ∧ t.phase = .faulted ∧ t.phasePort = 0b10 ∧ t.errCode = 2 ∧
      t.out = Outputs.idle ∧ t.pending = s.pending ∧
      (∀ j, j ≠ .nop → (∀ ib hb, j ≠ .construct ib hb) → exec j t = .refused .blockFaulted ∨
        exec j t = .refused .reservedOperationCode) ∧
      (∀ ib hb, validConfig ib hb = true →
        ∃ t', exec (.construct ib hb) t = .next t' ∧ t'.successful = true)

/-- The read-only operations that do not raise leave no trace: whatever operation comes next answers as if they had not
been there (42_statistics.md R165, derived). -/
def Obligations.ReadOnlyOperationsLeaveNoTrace : Prop :=
  ∀ (s t : State) (i : Instr), (i = .nop ∨ i = .stats ∨ i = .ratio ∨ ∃ k, i = .peek k) →
    exec i s = .next t → t.phase = s.phase →
    t.block = s.block ∧ t.errCode = s.errCode ∧ t.pending = s.pending ∧ ∀ j, exec j t = exec j s

/-! ### The table's own operations -/

/-- TBL_GET inside the table answers the two-bit field of its unit and changes nothing; at or above the size it raises
TableIndexOutOfRange (40_table_ops.md R101), which is fatal: `Faulted`, code 2 (60_exceptions.md R182, R186; D7, D13, D14). That
it runs on a `Ready` block as an operation of its own, and faults that block, is DEDUCED (log 13); that only `t_value_out` is
driven, and nothing when it raises, is the model's choice (log 11). -/
def Obligations.TblGetReadsItsField : Prop :=
  ∀ (s : State) (p : Predictor) (i : Nat), s.block = .ready p →
    (i < p.table.ncounters → ∃ v : BitVec 2,
      exec (.tblGet i) s = .next { s with
        out := { missCount := none, totalCount := none, ratio := none, peekValue := none, tValueOut := some v } } ∧
      v.toNat = ((p.table.units.read (i / 4)).toNat >>> (2 * (i % 4))) &&& 3) ∧
    (p.table.ncounters ≤ i → ∃ t : State,
      exec (.tblGet i) s = .next t ∧ t.phase = .faulted ∧ t.errCode = 2 ∧ t.out = Outputs.idle ∧
      t.pending = s.pending)

/-- TBL_SET replaces exactly bits `[2s+1:2s]` of one unit; the other three fields and every other unit keep their value.
The index is checked before the value, both before the write (40_table_ops.md R104, 20_memory.md R55; the order is D15). Both
errors are fatal: `Faulted`, codes 2 and 3 (60_exceptions.md R182, R183, R186; D7, D13, D14). That it runs on a `Ready` block as an
operation of its own, and faults that block, is DEDUCED (log 13); that no result port is driven is the model's choice (log 11). -/
def Obligations.TblSetWritesOnlyItsField : Prop :=
  ∀ (s : State) (p : Predictor) (i v : Nat), s.block = .ready p → p.table.units.wf = true →
    (i < p.table.ncounters → v ≤ 3 → ∃ t : Table,
      exec (.tblSet i v) s = .next { s with block := .ready { p with table := t }, out := Outputs.idle } ∧
      t.nunits = p.table.nunits ∧
      (∀ u, u ≠ i / 4 → t.units.read u = p.table.units.read u) ∧
      (t.units.read (i / 4)).toNat =
        ((p.table.units.read (i / 4)).toNat &&& (0xFF - (3 <<< (2 * (i % 4))))) ||| (v <<< (2 * (i % 4))) ∧
      (∀ k, k < 4 → fieldAt (t.units.read (i / 4)) (2 * k) =
        if k = i % 4 then v else fieldAt (p.table.units.read (i / 4)) (2 * k))) ∧
    (p.table.ncounters ≤ i → ∃ t : State,
      exec (.tblSet i v) s = .next t ∧ t.phase = .faulted ∧ t.errCode = 2 ∧ t.pending = s.pending) ∧
    (i < p.table.ncounters → 3 < v → ∃ t : State,
      exec (.tblSet i v) s = .next t ∧ t.phase = .faulted ∧ t.errCode = 3 ∧ t.pending = s.pending)

/-- The laws of get and set (40_table_ops.md R105 (a) to (d), derived), on a table in canonical form. -/
def Obligations.TableGetSetLaws : Prop :=
  ∀ (t : Table) (i v w : Nat), t.units.wf = true → i < t.ncounters → v ≤ 3 → w ≤ 3 →
    ∃ tv tw : Table,
      t.set i v = .ok tv ∧ t.set i w = .ok tw ∧ tv.units.wf = true ∧ tv.ncounters = t.ncounters ∧
      tv.get i = .ok v ∧
      (∀ j, j ≠ i → tv.get j = t.get j) ∧
      tv.set i w = .ok tw ∧
      (t.get i = .ok v → tv = t)

/-! ### The whole machine -/

/-- The invariant holds at power-on. -/
def Obligations.PowerOnMeetsTheInvariant : Prop :=
  State.reset.Inv ∧ State.reset.memory.wf = true

/-- Every step keeps the invariant: counters in 0 to 3, `missCount <= totalCount`, a valid configuration with its mask, a
history within `historyBits` bits, a table of the right size in canonical form, `errCode` as the phase says
(10_state.md R31, derived there from the operations' rules; the phases and codes are D7 and D13, the history's bound rests
on D9). -/
def Obligations.StepKeepsTheInvariant : Prop :=
  ∀ s t : State, s.Inv → step s = .next t → t.Inv

/-- Every operation, an internal TBL_SET among them, keeps the storage units in canonical form and leaves the
environment's schedule alone. The canonical form is the model's own. -/
def Obligations.EveryOperationKeepsTheCanonicalForm : Prop :=
  ∀ (i : Instr) (s t : State), s.memory.wf = true → exec i s = .next t →
    t.memory.wf = true ∧ t.pending = s.pending

/-- Where errors come from: in a run, TableIndexOutOfRange only from a PEEK outside the table, ConfigError only from an
invalid CONSTRUCT, the other two never (60_exceptions.md R197, derived; the codes are D13). -/
def Obligations.ErrorsComeOnlyFromPeekAndConstruct : Prop :=
  ∀ s t : State, s.Inv → step s = .next t →
    t.errCode ≠ 3 ∧ t.errCode ≠ 4 ∧
    (t.errCode = 2 → s.errCode ≠ 2 →
      ∃ p i, s.block = .ready p ∧ decode s.presented = .peek i ∧ p.table.ncounters ≤ i) ∧
    (t.errCode = 1 → s.errCode ≠ 1 →
      ∃ ib hb, decode s.presented = .construct ib hb ∧ validConfig ib hb = false)

/-- The table, the history, the statistics and the configuration are changed by no operation the environment can issue but
UPDATE and CONSTRUCT; a PEEK outside the table only takes the block out of `Ready` (41_predictor_update.md R142,
20_memory.md R64, 42_statistics.md R165; D18, D25). -/
def Obligations.OnlyUpdateAndConstructChangeThePredictor : Prop :=
  ∀ s t : State, step s = .next t → (∀ a o, decode s.presented ≠ .update a o) →
    (∀ ib hb, decode s.presented ≠ .construct ib hb) →
    (t.block = s.block ∧ t.errCode = s.errCode) ∨
    (∃ p i, s.block = .ready p ∧ decode s.presented = .peek i ∧ p.table.ncounters ≤ i ∧ t.phase = .faulted)

/-- Between two CONSTRUCTs the configuration registers and the table's size never change and the statistics never
decrease (10_state.md R22 to R24, R26). -/
def Obligations.ConfigurationIsFixedAndStatisticsGrow : Prop :=
  ∀ (s t : State) (p q : Predictor), s.Inv → s.block = .ready p → step s = .next t → t.block = .ready q →
    (∀ ib hb, decode s.presented ≠ .construct ib hb) →
    q.indexBits = p.indexBits ∧ q.historyBits = p.historyBits ∧ q.indexMask = p.indexMask ∧
    q.table.nunits = p.table.nunits ∧ p.missCount.toNat ≤ q.missCount.toNat ∧
    p.totalCount.toNat ≤ q.totalCount.toNat

/-- From every `Ready` state that meets the invariant, a schedule of NOP, STATS, RATIO, UPDATE and in-range PEEK runs to its
end without an error or a refusal as long as the statistics have room, and counts exactly its UPDATEs
(60_exceptions.md R197, 42_statistics.md R166; derived). -/
def Obligations.AdmittedSchedulesRunToTheirEnd : Prop :=
  ∀ (s : State) (p : Predictor) (ops : List Instr) (rest : List Ports), s.Inv → s.block = .ready p →
    s.pending = ops.map portsOf ++ rest →
    (∀ i ∈ ops, i.wf = true ∧ (i = .nop ∨ i = .stats ∨ i = .ratio ∨ (∃ a o, i = .update a o) ∨
      ∃ k, i = .peek k ∧ k < p.table.ncounters)) →
    p.totalCount.toNat + ops.countP isUpdate ≤ statMax →
    ∃ t q, runSteps ops.length s = .next t ∧ t.block = .ready q ∧ t.Inv ∧ t.pending = rest ∧
      q.totalCount.toNat =
        p.totalCount.toNat + ops.countP isUpdate

/-- The packed, masked, register-level block and the plain predictor of the rules agree on every run, of any configuration
and any trace, from any state whatever: the same counters, the same history, the same misses, the same total
(41_predictor_update.md R144, R149; 10_state.md R35; the initial history is D9, log 8). -/
def Obligations.RunMatchesTheLogicalPredictor : Prop :=
  ∀ (s : State) (ib hb : Nat) (es : List Event) (rest : List Ports), PresentsRun s ib hb es rest →
    ∃ t q, runSteps (es.length + 1) s = .next t ∧ t.block = .ready q ∧ t.successful = true ∧ t.pending = rest ∧
      (∀ i, i < 2 ^ ib → q.table.get i = .ok ((Gshare.run ib hb es).counters i)) ∧
      q.h.toNat = (Gshare.run ib hb es).history ∧
      q.missCount.toNat = (Gshare.run ib hb es).misses ∧
      q.totalCount.toNat = es.length

/-- After a run, bit `historyBits - 1 - k` of `h` is the outcome of the k-th most recent event, and 0, which reads as
NotTaken, where there was none (30_encoding.md R72, 10_state.md R25; derived; the zeros rest on D9, log 8). -/
def Obligations.HistoryHoldsTheMostRecentOutcomes : Prop :=
  ∀ (s : State) (ib hb : Nat) (es : List Event) (rest : List Ports), PresentsRun s ib hb es rest →
    ∃ t q, runSteps (es.length + 1) s = .next t ∧ t.block = .ready q ∧
      (∀ k, k < hb → q.h.getLsbD (hb - 1 - k) =
        match es.reverse[k]? with
        | some e => decide (e.2 = .taken)
        | none => false) ∧
      ∀ k, hb ≤ k → q.h.getLsbD k = false

/-! ### Two rules of UPDATE in the source's own words -/

/-- Which counter an UPDATE acts on, and what becomes of it: the history as it was before this UPDATE is masked, shifted, masked
again and XORed into the truncated address, whatever the outcome; without history nothing is folded and `h` is not read. The
counter there takes its saturating step on every UPDATE, hit or miss, and no other counter changes
(41_predictor_update.md R132, R137). On a table in canonical form; that an enabled UPDATE completes is said by
`UpdateMovesExactlyTheSelectedCounter`. -/
def Obligations.UpdateFoldsTheOldHistoryAndStepsOneCounter : Prop :=
  ∀ (s t : State) (p q : Predictor) (a : Nat) (o : PredictionOutcome), s.block = .ready p → p.table.units.wf = true →
    exec (.update a o) s = .next t → t.block = .ready q →
    let a1 := a &&& p.indexMask.toNat
    let t1 := p.h.toNat &&& p.indexMask.toNat
    let t2 := t1 <<< (p.indexBits.toNat - p.historyBits.toNat)
    let t3 := t2 &&& p.indexMask.toNat
    let a2 := if 0 < p.historyBits.toNat then a1 ^^^ t3 else a1
    (∀ j, j ≠ a2 → q.table.get j = p.table.get j) ∧
    (∃ cnt, p.table.get a2 = .ok cnt ∧ cnt ≤ 3 ∧
      q.table.get a2 = .ok (match o, cnt with
        | .notTaken, 0 => 0 | .notTaken, 1 => 0 | .notTaken, 2 => 1 | .notTaken, _ => 2
        | .taken, 0 => 1 | .taken, 1 => 2 | .taken, 2 => 3 | .taken, _ => 3)) ∧
    (p.historyBits = 0 → ∀ (g : BitVec 32) (t' : State) (q' : Predictor),
      exec (.update a o) { s with block := .ready { p with h := g } } = .next t' → t'.block = .ready q' →
        q'.table = q.table)

/-- The comparator: an UPDATE is a miss exactly when the prediction implied by the counter, as it was before the counter's
own step, differs from the outcome: after N when it was 2 or 3, after T when it was 0 or 1
(41_predictor_update.md R136). The premise on the two counts is part of the invariant, and keeps `missCount` from its top. -/
def Obligations.UpdateMissesWhenTheOldCounterPredictsOtherwise : Prop :=
  ∀ (s t : State) (p q : Predictor) (a : Nat) (o : PredictionOutcome) (cnt : Nat), s.block = .ready p →
    p.missCount.toNat ≤ p.totalCount.toNat → p.table.get (p.selectedCounter a) = .ok cnt →
    exec (.update a o) s = .next t → t.block = .ready q →
    (q.missCount.toNat = p.missCount.toNat + 1 ∨ q.missCount = p.missCount) ∧
    (q.missCount.toNat = p.missCount.toNat + 1 ↔ impliedPrediction cnt ≠ o) ∧
    (o = .notTaken → (q.missCount.toNat = p.missCount.toNat + 1 ↔ cnt = 2 ∨ cnt = 3)) ∧
    (o = .taken → (q.missCount.toNat = p.missCount.toNat + 1 ↔ cnt = 0 ∨ cnt = 1))
end

