-- ==== Sys2Proof/Laws/State.lean ====
section
/-! SUPPORT. What each update of State leaves in each field. -/

namespace Sys2Proof.Machine

section updates
variable (s : State) (b : Block) (c : BitVec 3) (o : Outputs) (ps : List Ports) (e : BlockError) (p : Ports)

@[simp] theorem State.withBlock_block : (s.withBlock b).block = b := rfl
@[simp] theorem State.withBlock_errCode : (s.withBlock b).errCode = s.errCode := rfl
@[simp] theorem State.withBlock_out : (s.withBlock b).out = s.out := rfl
@[simp] theorem State.withBlock_pending : (s.withBlock b).pending = s.pending := rfl

@[simp] theorem State.withErrCode_block : (s.withErrCode c).block = s.block := rfl
@[simp] theorem State.withErrCode_errCode : (s.withErrCode c).errCode = c := rfl
@[simp] theorem State.withErrCode_out : (s.withErrCode c).out = s.out := rfl
@[simp] theorem State.withErrCode_pending : (s.withErrCode c).pending = s.pending := rfl

@[simp] theorem State.withOut_block : (s.withOut o).block = s.block := rfl
@[simp] theorem State.withOut_errCode : (s.withOut o).errCode = s.errCode := rfl
@[simp] theorem State.withOut_out : (s.withOut o).out = o := rfl
@[simp] theorem State.withOut_pending : (s.withOut o).pending = s.pending := rfl

@[simp] theorem State.withPending_block : (s.withPending ps).block = s.block := rfl
@[simp] theorem State.withPending_errCode : (s.withPending ps).errCode = s.errCode := rfl
@[simp] theorem State.withPending_out : (s.withPending ps).out = s.out := rfl
@[simp] theorem State.withPending_pending : (s.withPending ps).pending = ps := rfl

@[simp] theorem State.consume_block : s.consume.block = s.block := rfl
@[simp] theorem State.consume_errCode : s.consume.errCode = s.errCode := rfl
@[simp] theorem State.consume_out : s.consume.out = s.out := rfl
@[simp] theorem State.consume_pending : s.consume.pending = s.pending.tail := rfl

@[simp] theorem State.present_block : (s.present p).block = s.block := rfl
@[simp] theorem State.present_errCode : (s.present p).errCode = s.errCode := rfl
@[simp] theorem State.present_out : (s.present p).out = s.out := rfl
@[simp] theorem State.present_pending : (s.present p).pending = p :: s.pending := rfl
@[simp] theorem State.presented_present : (s.present p).presented = p := rfl
@[simp] theorem State.consume_present : (s.present p).consume = s := rfl

@[simp] theorem raise_block : (raise e s).block = e.blockAfter s.block := rfl
@[simp] theorem raise_errCode : (raise e s).errCode = e.code := rfl
@[simp] theorem raise_out : (raise e s).out = Outputs.idle := rfl
@[simp] theorem raise_pending : (raise e s).pending = s.pending := rfl

@[simp] theorem blockAfter_configError (ib hb : Nat) : (BlockError.configError ib hb).blockAfter b = .unconstructed := rfl
@[simp] theorem blockAfter_invalidArgument (n : Nat) : (BlockError.invalidArgument n).blockAfter b = .unconstructed := rfl
@[simp] theorem blockAfter_tableIndexOutOfRange (i : Nat) :
    (BlockError.tableIndexOutOfRange i).blockAfter b = b.fault := rfl
@[simp] theorem blockAfter_tableInvalidValue (v : Nat) :
    (BlockError.tableInvalidValue v).blockAfter b = b.fault := rfl

@[simp] theorem code_configError (ib hb : Nat) : (BlockError.configError ib hb).code = 1 := rfl
@[simp] theorem code_tableIndexOutOfRange (i : Nat) : (BlockError.tableIndexOutOfRange i).code = 2 := rfl
@[simp] theorem code_tableInvalidValue (v : Nat) : (BlockError.tableInvalidValue v).code = 3 := rfl
@[simp] theorem code_invalidArgument (n : Nat) : (BlockError.invalidArgument n).code = 4 := rfl

end updates

section predictor
variable (p : Predictor) (o : PredictionOutcome) (ib hb n : Nat)

@[simp] theorem Block.phase_ready : (Block.ready p).phase = .ready := rfl
@[simp] theorem Block.phase_faulted : (Block.faulted p).phase = .faulted := rfl
@[simp] theorem Block.phase_unconstructed : Block.unconstructed.phase = .unconstructed := rfl
@[simp] theorem Block.fault_ready : (Block.ready p).fault = .faulted p := rfl

@[simp] theorem freshPredictor_indexBits : (freshPredictor ib hb n).indexBits = BitVec.ofNat 6 ib := rfl
@[simp] theorem freshPredictor_historyBits : (freshPredictor ib hb n).historyBits = BitVec.ofNat 6 hb := rfl
@[simp] theorem freshPredictor_indexMask :
    (freshPredictor ib hb n).indexMask = BitVec.ofNat 32 (maskOf ib) := rfl
@[simp] theorem freshPredictor_h : (freshPredictor ib hb n).h = 0 := rfl
@[simp] theorem freshPredictor_missCount : (freshPredictor ib hb n).missCount = 0 := rfl
@[simp] theorem freshPredictor_totalCount : (freshPredictor ib hb n).totalCount = 0 := rfl
@[simp] theorem freshPredictor_table : (freshPredictor ib hb n).table = Table.init n := rfl
@[simp] theorem Table.init_nunits : (Table.init n).nunits = n := rfl
@[simp] theorem Table.init_units : (Table.init n).units = [] := rfl

end predictor

end Sys2Proof.Machine
end

