-- ==== Sys2Proof/Laws/Memory.lean ====
section
/-! SUPPORT. The storage units: reading after writing, and the canonical form that every operation keeps. -/

namespace Sys2Proof.Machine

theorem Memory.wfFrom_cons {lo a : Nat} {b : StorageUnit} {m : Memory} :
    Memory.wfFrom lo ((a, b) :: m) = true ↔
      lo ≤ a ∧ b ≠ Config.unitInit ∧ Memory.wfFrom (a + 1) m = true := by
  simp [Memory.wfFrom, and_assoc]

theorem Memory.wfFrom_mono {lo lo' : Nat} {m : Memory} (h : lo' ≤ lo) (hm : Memory.wfFrom lo m = true) :
    Memory.wfFrom lo' m = true := by
  cases m with
  | nil => rfl
  | cons c m =>
    obtain ⟨a, b⟩ := c
    rw [Memory.wfFrom_cons] at hm ⊢
    exact ⟨by omega, hm.2⟩

/-- A unit below every listed one holds its initial value. -/
theorem Memory.read_below {lo u : Nat} {m : Memory} (hm : Memory.wfFrom lo m = true) (h : u < lo) :
    m.read u = Config.unitInit := by
  induction m generalizing lo with
  | nil => rfl
  | cons c m ih =>
    obtain ⟨a, b⟩ := c
    rw [Memory.wfFrom_cons] at hm
    have hne : u ≠ a := by omega
    simp only [Memory.read, hne, if_false]
    exact ih hm.2.2 (by omega)

/-- Writing a unit leaves every other unit alone. -/
theorem Memory.read_write_of_ne {m : Memory} {u u' : Nat} {v : StorageUnit} (h : u' ≠ u) :
    (m.write u v).read u' = m.read u' := by
  induction m with
  | nil => by_cases hv : v = Config.unitInit <;> simp [Memory.write, Memory.read, hv, h]
  | cons c m ih =>
    obtain ⟨a, b⟩ := c
    rcases Nat.lt_trichotomy u a with hua | rfl | hua
    · by_cases hv : v = Config.unitInit <;> simp [Memory.write, Memory.read, hua, hv, h]
    · by_cases hv : v = Config.unitInit <;> simp [Memory.write, Memory.read, hv, h]
    · simp [Memory.write, Memory.read, Nat.not_lt.mpr hua.le, hua.ne', ih]

theorem Memory.read_write_same_from {lo : Nat} {m : Memory} {u : Nat} {v : StorageUnit}
    (hm : Memory.wfFrom lo m = true) : (m.write u v).read u = v := by
  induction m generalizing lo with
  | nil => by_cases hv : v = Config.unitInit <;> simp [Memory.write, Memory.read, hv]
  | cons c m ih =>
    obtain ⟨a, b⟩ := c
    rw [Memory.wfFrom_cons] at hm
    rcases Nat.lt_trichotomy u a with hua | rfl | hua
    · by_cases hv : v = Config.unitInit
      · have := Memory.read_below hm.2.2 (u := u) (by omega)
        simp [Memory.write, Memory.read, hua, hv, hua.ne, this]
      · simp [Memory.write, Memory.read, hua, hv]
    · by_cases hv : v = Config.unitInit
      · have := Memory.read_below hm.2.2 (u := u) (by omega)
        simp [Memory.write, hv, this]
      · simp [Memory.write, Memory.read, hv]
    · simp [Memory.write, Memory.read, Nat.not_lt.mpr hua.le, hua.ne', ih hm.2.2]

theorem Memory.wfFrom_write {lo : Nat} {m : Memory} {u : Nat} {v : StorageUnit}
    (hm : Memory.wfFrom lo m = true) (hu : lo ≤ u) : Memory.wfFrom lo (m.write u v) = true := by
  induction m generalizing lo with
  | nil =>
    by_cases hv : v = Config.unitInit <;> simp [Memory.write, Memory.wfFrom, hv, hu]
  | cons c m ih =>
    obtain ⟨a, b⟩ := c
    rw [Memory.wfFrom_cons] at hm
    obtain ⟨hlo, hb, hm⟩ := hm
    rcases Nat.lt_trichotomy u a with hua | rfl | hua
    · by_cases hv : v = Config.unitInit
      · simp [Memory.write, hua, hv, Memory.wfFrom_cons, hlo, hb, hm]
      · simp [Memory.write, hua, hv, Memory.wfFrom_cons, hu, hb, hm, Nat.succ_le_of_lt hua]
    · by_cases hv : v = Config.unitInit
      · simpa [Memory.write, hv] using Memory.wfFrom_mono (by omega) hm
      · simp [Memory.write, hv, Memory.wfFrom_cons, hu, hm]
    · simp [Memory.write, Nat.not_lt.mpr hua.le, hua.ne', Memory.wfFrom_cons, hlo, hb,
        ih hm (Nat.succ_le_of_lt hua)]

theorem Memory.ext_from {lo : Nat} {m m' : Memory} (hm : Memory.wfFrom lo m = true)
    (hm' : Memory.wfFrom lo m' = true) (h : ∀ u, m.read u = m'.read u) : m = m' := by
  induction m generalizing lo m' with
  | nil =>
    cases m' with
    | nil => rfl
    | cons c m' =>
      obtain ⟨a, b⟩ := c
      rw [Memory.wfFrom_cons] at hm'
      exact absurd (by simpa [Memory.read] using (h a).symm) hm'.2.1
  | cons c m ih =>
    obtain ⟨a, b⟩ := c
    rw [Memory.wfFrom_cons] at hm
    cases m' with
    | nil => exact absurd (by simpa [Memory.read] using h a) hm.2.1
    | cons c' m' =>
      obtain ⟨a', b'⟩ := c'
      rw [Memory.wfFrom_cons] at hm'
      have haa : a = a' := by
        rcases Nat.lt_trichotomy a a' with hlt | heq | hlt
        · have hr := h a
          rw [Memory.read, if_pos rfl, Memory.read, if_neg hlt.ne,
            Memory.read_below hm'.2.2 (by omega)] at hr
          exact absurd hr hm.2.1
        · exact heq
        · have hr := h a'
          rw [Memory.read, if_neg hlt.ne, Memory.read_below hm.2.2 (by omega), Memory.read,
            if_pos rfl] at hr
          exact absurd hr.symm hm'.2.1
      subst haa
      have hbb : b = b' := by simpa [Memory.read] using h a
      subst hbb
      congr 1
      refine ih hm.2.2 hm'.2.2 fun u => ?_
      rcases Nat.lt_or_ge u (a + 1) with hu | hu
      · rw [Memory.read_below hm.2.2 hu, Memory.read_below hm'.2.2 hu]
      · have hne : u ≠ a := by omega
        simpa [Memory.read, hne] using h u

/-! ### The same, in terms of `Memory.wf` -/

theorem Memory.wf_nil : Memory.wf [] = true := rfl

/-- Reading a unit after writing it. -/
theorem Memory.read_write_same {m : Memory} (hm : m.wf = true) (u : Nat) (v : StorageUnit) :
    (m.write u v).read u = v := Memory.read_write_same_from hm

/-- The canonical form is kept. -/
theorem Memory.wf_write {m : Memory} (hm : m.wf = true) (u : Nat) (v : StorageUnit) :
    (m.write u v).wf = true := Memory.wfFrom_write hm (Nat.zero_le u)

/-- Memories in canonical form that read alike are the same data. -/
theorem Memory.eq_of_read_eq {m m' : Memory} (hm : m.wf = true) (hm' : m'.wf = true)
    (h : ∀ u, m.read u = m'.read u) : m = m' := Memory.ext_from hm hm' h

theorem Memory.read_write {m : Memory} (hm : m.wf = true) (u u' : Nat) (v : StorageUnit) :
    (m.write u v).read u' = if u' = u then v else m.read u' := by
  split
  · next h => rw [h, Memory.read_write_same hm]
  · next h => exact Memory.read_write_of_ne h

/-- Writing back what a unit holds changes nothing. -/
theorem Memory.write_read {m : Memory} (hm : m.wf = true) (u : Nat) : m.write u (m.read u) = m := by
  refine Memory.eq_of_read_eq (Memory.wf_write hm _ _) hm fun u' => ?_
  rw [Memory.read_write hm]
  split
  · next h => rw [h]
  · rfl

/-- Of two writes to one unit the second stays. -/
theorem Memory.write_write {m : Memory} (hm : m.wf = true) (u : Nat) (v w : StorageUnit) :
    (m.write u v).write u w = m.write u w := by
  refine Memory.eq_of_read_eq (Memory.wf_write (Memory.wf_write hm _ _) _ _) (Memory.wf_write hm _ _) fun u' => ?_
  simp only [Memory.read_write hm, Memory.read_write (Memory.wf_write hm u v)]
  split <;> rfl

/-- A write lists no unit but the one written. -/
theorem Memory.mem_write {m : Memory} {u : Nat} {v : StorageUnit} {c : Host.Cell} (h : c ∈ m.write u v) :
    c.1 = u ∨ c ∈ m := by
  induction m with
  | nil => by_cases hv : v = Config.unitInit <;> simp [Memory.write, hv] at h; exact .inl (by rw [h])
  | cons d m ih =>
    obtain ⟨a, b⟩ := d
    rcases Nat.lt_trichotomy u a with hua | rfl | hua
    · by_cases hv : v = Config.unitInit
      · right; simpa [Memory.write, hua, hv] using h
      · simp only [Memory.write, hua, hv, if_true, if_false, List.mem_cons] at h
        rcases h with rfl | h
        · exact .inl rfl
        · exact .inr (List.mem_cons.mpr h)
    · by_cases hv : v = Config.unitInit
      · right; simp [Memory.write, hv] at h; simp [h]
      · simp only [Memory.write, lt_irrefl, hv, if_true, if_false, List.mem_cons] at h
        rcases h with rfl | h
        · exact .inl rfl
        · exact .inr (List.mem_cons.mpr (.inr h))
    · simp only [Memory.write, Nat.not_lt.mpr hua.le, hua.ne', if_false, List.mem_cons] at h
      rcases h with rfl | h
      · exact .inr (List.mem_cons.mpr (.inl rfl))
      · exact (ih h).imp_right fun h => List.mem_cons.mpr (.inr h)

end Sys2Proof.Machine
end

