-- ==== Sys2Proof/Laws/Table.lean ====
section
/-! SUPPORT. The table's operations: what a field of a unit is after another was written, what TblGet and TblSet can answer
(40_table_ops.md R101, R104, R105), and that they keep the table's invariants. -/

namespace Sys2Proof.Machine

/-- Four fields of a unit, checked on every unit, field and value. -/
theorem field_table : ∀ b : Fin 256, ∀ s v s' : Fin 4,
    ((((b.val &&& (0xFF - (3 <<< (2 * s.val)))) ||| (v.val <<< (2 * s.val))) % 256) >>> (2 * s'.val)) &&& 3
      = if s' = s then v.val else (b.val >>> (2 * s'.val)) &&& 3 := by
  decide +kernel

/-- A field written reads back, the other three fields of the unit stay (20_memory.md R55). -/
theorem fieldAt_withFieldAt (b : StorageUnit) {s v s' : Nat} (hs : s < 4) (hv : v ≤ 3) (hs' : s' < 4) :
    fieldAt (withFieldAt b (2 * s) v) (2 * s') = if s' = s then v else fieldAt b (2 * s') := by
  have h := field_table ⟨b.toNat, b.isLt⟩ ⟨s, hs⟩ ⟨v, by omega⟩ ⟨s', hs'⟩
  simpa only [fieldAt, withFieldAt, BitVec.toNat_ofNat, Fin.mk.injEq, Nat.reducePow] using h

theorem fieldAt_le (b : StorageUnit) (sh : Nat) : fieldAt b sh ≤ 3 := Nat.and_le_right

theorem fieldAt_init {s : Nat} (hs : s < 4) : fieldAt Config.unitInit (2 * s) = Config.cntInit := by
  interval_cases s <;> decide

/-- Two units with the same four fields are the same unit. -/
theorem unit_eq_of_fields {b b' : StorageUnit} (h : ∀ s, s < 4 → fieldAt b (2 * s) = fieldAt b' (2 * s)) :
    b = b' := by
  have key : ∀ n : Nat, n < 256 →
      n = (n >>> 0 &&& 3) + 4 * (n >>> 2 &&& 3) + 16 * (n >>> 4 &&& 3) + 64 * (n >>> 6 &&& 3) := by decide +kernel
  have h0 := h 0 (by omega)
  have h1 := h 1 (by omega)
  have h2 := h 2 (by omega)
  have h3 := h 3 (by omega)
  simp only [fieldAt, Nat.mul_zero, Nat.mul_one, Nat.reduceMul] at h0 h1 h2 h3
  apply BitVec.eq_of_toNat_eq
  rw [key b.toNat b.isLt, key b'.toNat b'.isLt, h0, h1, h2, h3]

theorem index_split (i : Nat) : 4 * unitOf i + i % 4 = i := by unfold unitOf; omega

theorem counter_le (t : Table) (i : Nat) : t.counter i ≤ 3 := fieldAt_le _ _

/-- One field is written, every other counter of the table is what it was (40_table_ops.md R105 (a), (b)). -/
theorem counter_put {t : Table} (ht : t.units.wf = true) {v : Nat} (i j : Nat) (hv : v ≤ 3) :
    (t.put i v).counter j = if j = i then v else t.counter j := by
  unfold Table.put Table.counter
  simp only [Memory.read_write ht, offsetOf]
  by_cases hu : unitOf j = unitOf i
  · rw [if_pos hu, fieldAt_withFieldAt _ (Nat.mod_lt _ (by omega)) hv (Nat.mod_lt _ (by omega)), hu]
    have hj := index_split j
    have hi := index_split i
    by_cases hji : j = i
    · simp [hji]
    · have : j % 4 ≠ i % 4 := by omega
      simp [hji, this]
  · have hji : j ≠ i := fun h => hu (by rw [h])
    simp [hu, hji]

/-- A unit that does not hold the counter written is left alone. -/
theorem read_put_of_ne {t : Table} {i v u : Nat} (h : u ≠ unitOf i) :
    (t.put i v).units.read u = t.units.read u := Memory.read_write_of_ne h

@[simp] theorem put_nunits (t : Table) (i v : Nat) : (t.put i v).nunits = t.nunits := rfl

@[simp] theorem put_ncounters (t : Table) (i v : Nat) : (t.put i v).ncounters = t.ncounters := rfl

theorem put_wf {t : Table} (ht : t.units.wf = true) (i v : Nat) : (t.put i v).units.wf = true :=
  Memory.wf_write ht _ _

theorem unitOf_lt {t : Table} {i : Nat} (h : i < t.ncounters) : unitOf i < t.nunits := by
  unfold Table.ncounters Config.cntPerUnit at h
  unfold unitOf
  omega

theorem put_populated {t : Table} (ht : ∀ c ∈ t.units, c.1 < t.nunits) {i v : Nat} (hi : i < t.ncounters) :
    ∀ c ∈ (t.put i v).units, c.1 < (t.put i v).nunits := by
  intro c hc
  rcases Memory.mem_write hc with h | h
  · rw [h]; exact unitOf_lt hi
  · exact ht c h

/-- Tables of one size in canonical form with the same counters are the same data. -/
theorem table_eq_of_counters {t t' : Table} (ht : t.units.wf = true) (ht' : t'.units.wf = true)
    (hn : t.nunits = t'.nunits) (h : ∀ i, t.counter i = t'.counter i) : t = t' := by
  obtain ⟨n, m⟩ := t
  obtain ⟨n', m'⟩ := t'
  simp only at hn ht ht'
  congr 1
  refine Memory.eq_of_read_eq ht ht' fun u => unit_eq_of_fields fun s hs => ?_
  have h := h (4 * u + s)
  have h1 : unitOf (4 * u + s) = u := by unfold unitOf; omega
  have h2 : offsetOf (4 * u + s) = 2 * s := by unfold offsetOf; omega
  simpa only [Table.counter, h1, h2] using h

/-- TblGet below the size (40_table_ops.md R101). -/
theorem get_ok {t : Table} {i : Nat} (h : i < t.ncounters) : t.get i = .ok (t.counter i) := by
  simp [Table.get, Nat.not_le.mpr h]

/-- TblGet at or above the size (40_table_ops.md R101). -/
theorem get_error {t : Table} {i : Nat} (h : t.ncounters ≤ i) :
    t.get i = .error (.tableIndexOutOfRange i) := by
  simp [Table.get, h]

/-- What TblGet answers, once and for all. -/
theorem get_cases (t : Table) (i : Nat) :
    (i < t.ncounters ∧ t.get i = .ok (t.counter i)) ∨
    (t.ncounters ≤ i ∧ t.get i = .error (.tableIndexOutOfRange i)) := by
  rcases Nat.lt_or_ge i t.ncounters with h | h
  · exact .inl ⟨h, get_ok h⟩
  · exact .inr ⟨h, get_error h⟩

/-- What TblSet answers, once and for all (40_table_ops.md R104). -/
theorem set_cases (t : Table) (i v : Nat) :
    (i < t.ncounters ∧ v ≤ 3 ∧ t.set i v = .ok (t.put i v)) ∨
    (t.ncounters ≤ i ∧ t.set i v = .error (.tableIndexOutOfRange i)) ∨
    (i < t.ncounters ∧ 3 < v ∧ t.set i v = .error (.tableInvalidValue v)) := by
  rcases Nat.lt_or_ge i t.ncounters with h | h
  · rcases Nat.lt_or_ge 3 v with hv | hv
    · exact .inr (.inr ⟨h, hv, by simp [Table.set, Nat.not_le.mpr h, hv]⟩)
    · exact .inl ⟨h, hv, by simp [Table.set, Nat.not_le.mpr h, Nat.not_lt.mpr hv]⟩
  · exact .inr (.inl ⟨h, by simp [Table.set, h]⟩)

theorem set_ok {t : Table} {i v : Nat} (h : i < t.ncounters) (hv : v ≤ 3) : t.set i v = .ok (t.put i v) := by
  rcases set_cases t i v with ⟨_, _, h'⟩ | ⟨h', _⟩ | ⟨_, h', _⟩
  · exact h'
  · omega
  · omega

theorem init_counter (n i : Nat) : (Table.init n).counter i = Config.cntInit :=
  fieldAt_init (Nat.mod_lt _ (by omega))

end Sys2Proof.Machine
end

