-- ==== Sys2Proof/Laws/Operands.lean ====
section
/-! SUPPORT. Bounds on what an UPDATE computes: the selected counter lies in the table, the new counter value is a counter
value, the shifted history fits (41_predictor_update.md R139, R148). -/

namespace Sys2Proof.Machine

theorem validConfig_iff {ib hb : Nat} :
    validConfig ib hb = true ↔ 16 ≤ ib ∧ ib ≤ 32 ∧ hb ≤ 32 ∧ hb ≤ ib := by
  simp [validConfig, and_assoc]

theorem and_mask (n k : Nat) : n &&& (2 ^ k - 1) = n % 2 ^ k := Nat.and_two_pow_sub_one_eq_mod n k

/-- Reassembling row and column gives the hashed index back (90_conflicts.md C7). -/
theorem selectedCounter_eq (p : Predictor) (a : Nat) : p.selectedCounter a = p.hashedIndex a := by
  unfold Predictor.selectedCounter rowOf colOf
  omega

theorem hashedIndex_lt {p : Predictor} (h : p.indexMask.toNat = 2 ^ p.indexBits.toNat - 1) (a : Nat) :
    p.hashedIndex a < 2 ^ p.indexBits.toNat := by
  have hand : ∀ n, n &&& p.indexMask.toNat < 2 ^ p.indexBits.toNat := fun n => by
    rw [h, and_mask]; exact Nat.mod_lt _ (Nat.two_pow_pos _)
  unfold Predictor.hashedIndex
  split
  · exact hand _
  · exact Nat.xor_lt_two_pow (hand _) (hand _)

theorem Predictor.Inv.ncounters {p : Predictor} (hp : p.Inv) : p.table.ncounters = 2 ^ p.indexBits.toNat := by
  have hc := validConfig_iff.mp hp.config
  unfold Table.ncounters Config.cntPerUnit
  rw [hp.size]
  obtain ⟨k, hk⟩ : ∃ k, p.indexBits.toNat = k + 2 := ⟨p.indexBits.toNat - 2, by omega⟩
  rw [hk, Nat.add_sub_cancel, Nat.pow_add]
  omega

/-- UPDATE's table calls are in range by construction (41_predictor_update.md R148). -/
theorem Predictor.Inv.selected_lt {p : Predictor} (hp : p.Inv) (a : Nat) :
    p.selectedCounter a < p.table.ncounters := by
  rw [selectedCounter_eq, hp.ncounters]
  exact hashedIndex_lt hp.mask a

/-- The saturating counter stays a counter (41_predictor_update.md R137). -/
theorem nextCounter_le (o : PredictionOutcome) {c : Nat} (hc : c ≤ 3) : nextCounter o c ≤ 3 := by
  cases o <;> simp only [nextCounter] <;> omega

theorem outcomeBit_le (o : PredictionOutcome) : outcomeBit o ≤ 1 := by cases o <;> decide

/-- The history step keeps the history within its `historyBits` bits (41_predictor_update.md R139). -/
theorem shiftHistory_lt {hb h : Nat} (o : PredictionOutcome) (hh : h < 2 ^ hb) : shiftHistory hb o h < 2 ^ hb := by
  unfold shiftHistory
  split
  · exact hh
  · next hne =>
    obtain ⟨k, rfl⟩ : ∃ k, hb = k + 1 := ⟨hb - 1, by omega⟩
    refine Nat.or_lt_two_pow ?_ ?_
    · rw [Nat.shiftRight_eq_div_pow]; exact lt_of_le_of_lt (Nat.div_le_self _ _) hh
    · rw [Nat.shiftLeft_eq, Nat.add_sub_cancel, Nat.pow_succ]
      have := Nat.two_pow_pos k
      have := outcomeBit_le o
      nlinarith

end Sys2Proof.Machine
end

