-- ==== Sys2Proof/Laws/Exec.lean ====
section
/-! SUPPORT. What each operation can answer, once and for all; later proofs cite these and do not unfold the meanings. -/

namespace Sys2Proof.Machine

theorem whenReady_ready {s : State} {p : Predictor} (h : s.block = .ready p)
    (k : Predictor → Host.Outcome State Fault Refusal) : whenReady s k = k p := by
  simp [whenReady, h]

/-- Only a `Ready` block gets past the phase check (60_exceptions.md R192). -/
theorem whenReady_next {s t : State} {k : Predictor → Host.Outcome State Fault Refusal}
    (h : whenReady s k = .next t) : ∃ p, s.block = .ready p ∧ k p = .next t := by
  unfold whenReady at h
  split at h
  · cases h
  · next p hb => exact ⟨p, hb, h⟩
  · cases h

theorem whenReady_unconstructed {s : State} (h : s.block = .unconstructed)
    (k : Predictor → Host.Outcome State Fault Refusal) : whenReady s k = .refused .blockUnconstructed := by
  simp [whenReady, h]

theorem whenReady_faulted {s : State} {p : Predictor} (h : s.block = .faulted p)
    (k : Predictor → Host.Outcome State Fault Refusal) : whenReady s k = .refused .blockFaulted := by
  simp [whenReady, h]

/-- A valid configuration is built (41_predictor_update.md R120): the size guard does not fire (R122). -/
theorem buildPredictor_valid {ib hb : Nat} (h : validConfig ib hb = true) :
    buildPredictor ib hb = .ok (freshPredictor ib hb (2 ^ (ib - 2))) := by
  have hc := validConfig_iff.mp h
  have hle : ¬ Config.pow2MaxExp < ib - 2 := by unfold Config.pow2MaxExp; omega
  simp [buildPredictor, h, powerOfTwo, hle, Except.map]

theorem buildPredictor_invalid {ib hb : Nat} (h : validConfig ib hb = false) :
    buildPredictor ib hb = .error (.configError ib hb) := by
  simp [buildPredictor, h]

theorem execConstruct_valid {ib hb : Nat} (h : validConfig ib hb = true) (s : State) :
    execConstruct ib hb s =
      .next { s with block := .ready (freshPredictor ib hb (2 ^ (ib - 2))), errCode := 0, out := Outputs.idle } := by
  simp [execConstruct, buildPredictor_valid h, orRaise]

theorem execConstruct_invalid {ib hb : Nat} (h : validConfig ib hb = false) (s : State) :
    execConstruct ib hb s =
      .next { s with block := .unconstructed, errCode := 1, out := Outputs.idle } := by
  simp [execConstruct, buildPredictor_invalid h, orRaise, raise, BlockError.blockAfter, BlockError.code,
    State.withBlock]

/-- The predictor an UPDATE leaves. -/
def Predictor.updated (p : Predictor) (a : Nat) (o : PredictionOutcome) : Predictor :=
  p.afterUpdate o (p.table.counter (p.selectedCounter a))
    (p.table.put (p.selectedCounter a) (nextCounter o (p.table.counter (p.selectedCounter a))))

/-- What an UPDATE can answer as a next state: the update itself, or the table's range error, which the invariant
excludes. -/
theorem execUpdate_cases {a : Nat} {o : PredictionOutcome} {s t : State} (h : execUpdate a o s = .next t) :
    ∃ p, s.block = .ready p ∧ p.totalCount.toNat ≠ statMax ∧
      ((p.selectedCounter a < p.table.ncounters ∧
          t = { s with block := .ready (p.updated a o), out := Outputs.idle }) ∨
       (p.table.ncounters ≤ p.selectedCounter a ∧
          t = raise (.tableIndexOutOfRange (p.selectedCounter a)) s)) := by
  obtain ⟨p, hp, h⟩ := whenReady_next h
  refine ⟨p, hp, ?_⟩
  split at h
  · cases h
  · next hfull =>
    refine ⟨hfull, ?_⟩
    split at h
    · cases h
    · rcases get_cases p.table (p.selectedCounter a) with ⟨hi, hg⟩ | ⟨hi, hg⟩
      · rw [hg] at h
        simp only [orRaise, set_ok hi (nextCounter_le o (counter_le _ _)), Host.Outcome.next.injEq] at h
        exact .inl ⟨hi, h.symm⟩
      · rw [hg] at h
        simp only [orRaise, Host.Outcome.next.injEq] at h
        exact .inr ⟨hi, h.symm⟩

/-- An UPDATE that leaves the block `Ready` selected a counter of the table and is the update itself. -/
theorem execUpdate_ready {a : Nat} {o : PredictionOutcome} {s t : State} {p q : Predictor} (hs : s.block = .ready p)
    (h : execUpdate a o s = .next t) (ht : t.block = .ready q) :
    p.selectedCounter a < p.table.ncounters ∧ p.totalCount.toNat ≠ statMax ∧ q = p.updated a o := by
  obtain ⟨p', hp, hn, ⟨hi, rfl⟩ | ⟨_, rfl⟩⟩ := execUpdate_cases h <;> cases hs.symm.trans hp
  · cases ht; exact ⟨hi, hn, rfl⟩
  · simp [raise, BlockError.blockAfter, hs, Block.fault] at ht

/-- UPDATE on a `Ready` block that satisfies the invariant and whose statistics are not full. -/
theorem execUpdate_enabled {s : State} {p : Predictor} (hs : UpdateEnabled s p) (a : Nat) (o : PredictionOutcome) :
    execUpdate a o s = .next { s with block := .ready (p.updated a o), out := Outputs.idle } := by
  have hi := hs.inv.selected_lt a
  simp [execUpdate, whenReady_ready hs.ready, hs.notFull.ne, hs.inv.config, get_ok hi, orRaise,
    set_ok hi (nextCounter_le o (counter_le _ _)), Predictor.updated]

/-- What a TBL_SET can answer as a next state. -/
theorem execTblSet_cases {i v : Nat} {s t : State} (h : execTblSet i v s = .next t) :
    ∃ p, s.block = .ready p ∧
      ((i < p.table.ncounters ∧ v ≤ 3 ∧
          t = { s with block := .ready { p with table := p.table.put i v }, out := Outputs.idle }) ∨
       (p.table.ncounters ≤ i ∧ t = raise (.tableIndexOutOfRange i) s) ∨
       (i < p.table.ncounters ∧ 3 < v ∧ t = raise (.tableInvalidValue v) s)) := by
  obtain ⟨p, hp, h⟩ := whenReady_next h
  refine ⟨p, hp, ?_⟩
  rcases set_cases p.table i v with ⟨hi, hv, hg⟩ | ⟨hi, hg⟩ | ⟨hi, hv, hg⟩ <;>
    simp only [hg, orRaise, Host.Outcome.next.injEq] at h
  · exact .inl ⟨hi, hv, h.symm⟩
  · exact .inr (.inl ⟨hi, h.symm⟩)
  · exact .inr (.inr ⟨hi, hv, h.symm⟩)

/-- What an operation that reads one counter and drives it can answer as a next state. -/
theorem readCounter_cases {i : Nat} {s t : State} {f : Nat → Outputs}
    (h : (whenReady s fun p => orRaise s (p.table.get i) fun v => s.drive (f v)) = .next t) :
    ∃ p, s.block = .ready p ∧
      ((i < p.table.ncounters ∧ t = s.withOut (f (p.table.counter i))) ∨
       (p.table.ncounters ≤ i ∧ t = raise (.tableIndexOutOfRange i) s)) := by
  obtain ⟨p, hp, h⟩ := whenReady_next h
  refine ⟨p, hp, ?_⟩
  rcases get_cases p.table i with ⟨hi, hg⟩ | ⟨hi, hg⟩ <;>
    simp only [hg, orRaise, State.drive, Host.Outcome.next.injEq] at h
  · exact .inl ⟨hi, h.symm⟩
  · exact .inr ⟨hi, h.symm⟩

theorem execPeek_cases {i : Nat} {s t : State} (h : execPeek i s = .next t) :
    ∃ p, s.block = .ready p ∧
      ((i < p.table.ncounters ∧
          t = s.withOut { Outputs.idle with peekValue := some (BitVec.ofNat 2 (p.table.counter i)) }) ∨
       (p.table.ncounters ≤ i ∧ t = raise (.tableIndexOutOfRange i) s)) :=
  readCounter_cases (f := fun v => { Outputs.idle with peekValue := some (BitVec.ofNat 2 v) }) h

theorem execTblGet_cases {i : Nat} {s t : State} (h : execTblGet i s = .next t) :
    ∃ p, s.block = .ready p ∧
      ((i < p.table.ncounters ∧
          t = s.withOut { Outputs.idle with tValueOut := some (BitVec.ofNat 2 (p.table.counter i)) }) ∨
       (p.table.ncounters ≤ i ∧ t = raise (.tableIndexOutOfRange i) s)) :=
  readCounter_cases (f := fun v => { Outputs.idle with tValueOut := some (BitVec.ofNat 2 v) }) h

theorem execStats_cases {s t : State} (h : execStats s = .next t) :
    ∃ p, s.block = .ready p ∧
      t = s.withOut { Outputs.idle with missCount := some p.missCount, totalCount := some p.totalCount } := by
  obtain ⟨p, hp, h⟩ := whenReady_next h
  exact ⟨p, hp, by simpa [State.drive] using h.symm⟩

theorem execRatio_cases {s t : State} (h : execRatio s = .next t) :
    ∃ p, s.block = .ready p ∧
      t = s.withOut { Outputs.idle with
        ratio := some (ratioOutOf p.missCount.toNat p.totalCount.toNat) } := by
  obtain ⟨p, hp, h⟩ := whenReady_next h
  exact ⟨p, hp, by simpa [State.drive] using h.symm⟩

/-- What CONSTRUCT answers, once and for all. -/
theorem execConstruct_cases (ib hb : Nat) (s : State) :
    (validConfig ib hb = true ∧ execConstruct ib hb s = .next { s with
        block := .ready (freshPredictor ib hb (2 ^ (ib - 2))), errCode := 0, out := Outputs.idle }) ∨
    (validConfig ib hb = false ∧ execConstruct ib hb s = .next { s with
        block := .unconstructed, errCode := 1, out := Outputs.idle }) := by
  cases h : validConfig ib hb
  · exact .inr ⟨rfl, execConstruct_invalid h s⟩
  · exact .inl ⟨rfl, execConstruct_valid h s⟩

/-- What any operation can answer as a next state: a construction or its ConfigError; an update or its range error; a read
outside the table; a read-only operation; a TBL_SET or one of its errors. -/
theorem exec_cases {i : Instr} {s t : State} (h : exec i s = .next t) :
    (∃ ib hb, i = .construct ib hb ∧
      ((validConfig ib hb = true ∧ t = { s with
          block := .ready (freshPredictor ib hb (2 ^ (ib - 2))), errCode := 0, out := Outputs.idle }) ∨
       (validConfig ib hb = false ∧ t = { s with
          block := .unconstructed, errCode := 1, out := Outputs.idle }))) ∨
    (∃ a o p, i = .update a o ∧ s.block = .ready p ∧ p.totalCount.toNat ≠ statMax ∧
      ((p.selectedCounter a < p.table.ncounters ∧
          t = { s with block := .ready (p.updated a o), out := Outputs.idle }) ∨
       (p.table.ncounters ≤ p.selectedCounter a ∧
          t = raise (.tableIndexOutOfRange (p.selectedCounter a)) s))) ∨
    (∃ k p, (i = .peek k ∨ i = .tblGet k) ∧ s.block = .ready p ∧ p.table.ncounters ≤ k ∧
      t = raise (.tableIndexOutOfRange k) s) ∨
    ((i = .nop ∨ i = .stats ∨ i = .ratio ∨ (∃ k, i = .peek k) ∨ ∃ k, i = .tblGet k) ∧
      ∃ o, t = s.withOut o) ∨
    (∃ k v p, i = .tblSet k v ∧ s.block = .ready p ∧
      ((k < p.table.ncounters ∧ v ≤ 3 ∧
          t = { s with block := .ready { p with table := p.table.put k v }, out := Outputs.idle }) ∨
       (p.table.ncounters ≤ k ∧ t = raise (.tableIndexOutOfRange k) s) ∨
       (k < p.table.ncounters ∧ 3 < v ∧ t = raise (.tableInvalidValue v) s))) := by
  cases i with
  | nop =>
    exact .inr (.inr (.inr (.inl ⟨.inl rfl, Outputs.idle, by simpa [exec, execNop, State.drive] using h.symm⟩)))
  | construct ib hb =>
    refine .inl ⟨ib, hb, rfl, ?_⟩
    rcases execConstruct_cases ib hb s with ⟨hv, he⟩ | ⟨hv, he⟩ <;>
      simp only [exec, he, Host.Outcome.next.injEq] at h
    · exact .inl ⟨hv, h.symm⟩
    · exact .inr ⟨hv, h.symm⟩
  | update a o =>
    obtain ⟨p, hp, hn, h⟩ := execUpdate_cases h
    exact .inr (.inl ⟨a, o, p, rfl, hp, hn, h⟩)
  | stats =>
    obtain ⟨p, _, h⟩ := execStats_cases h
    exact .inr (.inr (.inr (.inl ⟨.inr (.inl rfl), _, h⟩)))
  | ratio =>
    obtain ⟨p, _, h⟩ := execRatio_cases h
    exact .inr (.inr (.inr (.inl ⟨.inr (.inr (.inl rfl)), _, h⟩)))
  | peek k =>
    obtain ⟨p, hp, ⟨_, h⟩ | ⟨hk, h⟩⟩ := execPeek_cases h
    · exact .inr (.inr (.inr (.inl ⟨.inr (.inr (.inr (.inl ⟨k, rfl⟩))), _, h⟩)))
    · exact .inr (.inr (.inl ⟨k, p, .inl rfl, hp, hk, h⟩))
  | reserved6 => cases h
  | reserved7 => cases h
  | tblGet k =>
    obtain ⟨p, hp, ⟨_, h⟩ | ⟨hk, h⟩⟩ := execTblGet_cases h
    · exact .inr (.inr (.inr (.inl ⟨.inr (.inr (.inr (.inr ⟨k, rfl⟩))), _, h⟩)))
    · exact .inr (.inr (.inl ⟨k, p, .inr rfl, hp, hk, h⟩))
  | tblSet k v =>
    obtain ⟨p, hp, h⟩ := execTblSet_cases h
    exact .inr (.inr (.inr (.inr ⟨k, v, p, rfl, hp, h⟩)))

/-- What the block answers outside `Ready` to anything but CONSTRUCT and NOP (60_exceptions.md R192). -/
theorem exec_outside_ready {s : State} {i : Instr} (h : s.phase ≠ .ready) (hn : i ≠ .nop)
    (hc : ∀ ib hb, i ≠ .construct ib hb) :
    exec i s = .refused .reservedOperationCode ∨
    (s.phase = .unconstructed ∧ exec i s = .refused .blockUnconstructed) ∨
    (s.phase = .faulted ∧ exec i s = .refused .blockFaulted) := by
  obtain ⟨b, e, o, ps⟩ := s
  cases b with
  | ready p => exact absurd rfl h
  | unconstructed =>
    cases i with
    | nop => exact absurd rfl hn
    | construct ib hb => exact absurd rfl (hc ib hb)
    | reserved6 => exact .inl rfl
    | reserved7 => exact .inl rfl
    | _ => exact .inr (.inl ⟨rfl, rfl⟩)
  | faulted p =>
    cases i with
    | nop => exact absurd rfl hn
    | construct ib hb => exact absurd rfl (hc ib hb)
    | reserved6 => exact .inl rfl
    | reserved7 => exact .inl rfl
    | _ => exact .inr (.inr ⟨rfl, rfl⟩)

/-- The ports never select an internal operation (20_memory.md R64). -/
theorem decode_ne_tblGet (p : Ports) (k : Nat) : decode p ≠ .tblGet k := by
  unfold decode
  split <;> simp

theorem decode_ne_tblSet (p : Ports) (k v : Nat) : decode p ≠ .tblSet k v := by
  unfold decode
  split <;> simp

/-! ### The predictor an UPDATE leaves, field by field -/

section updated
variable (p : Predictor) (a : Nat) (o : PredictionOutcome)

@[simp] theorem updated_indexBits : (p.updated a o).indexBits = p.indexBits := rfl
@[simp] theorem updated_historyBits : (p.updated a o).historyBits = p.historyBits := rfl
@[simp] theorem updated_indexMask : (p.updated a o).indexMask = p.indexMask := rfl
@[simp] theorem updated_nunits : (p.updated a o).table.nunits = p.table.nunits := rfl
@[simp] theorem updated_totalCount : (p.updated a o).totalCount = p.totalCount + 1 := rfl

theorem updated_missCount : (p.updated a o).missCount =
    if isMiss o (p.table.counter (p.selectedCounter a)) then p.missCount + 1 else p.missCount := rfl

theorem updated_table : (p.updated a o).table =
    p.table.put (p.selectedCounter a) (nextCounter o (p.table.counter (p.selectedCounter a))) := rfl

theorem updated_h : (p.updated a o).h = BitVec.ofNat 32 (shiftHistory p.historyBits.toNat o p.h.toNat) := rfl

end updated

/-- No carry out of a statistics register that is below its largest value. -/
theorem toNat_add_one {c : BitVec Config.statW} (h : c.toNat < statMax) : (c + 1).toNat = c.toNat + 1 := by
  have hc : c.toNat + 1 < 2 ^ Config.statW := by unfold statMax at h; omega
  rw [BitVec.toNat_add]
  exact Nat.mod_eq_of_lt hc

/-- The history register holds the shifted history exactly. -/
theorem updated_h_toNat {p : Predictor} (hp : p.Inv) (a : Nat) (o : PredictionOutcome) :
    (p.updated a o).h.toNat = shiftHistory p.historyBits.toNat o p.h.toNat := by
  have hc := validConfig_iff.mp hp.config
  have hlt := shiftHistory_lt o hp.history
  have : 2 ^ p.historyBits.toNat ≤ 2 ^ 32 := Nat.pow_le_pow_right (by omega) hc.2.2.1
  rw [updated_h, BitVec.toNat_ofNat]
  exact Nat.mod_eq_of_lt (by omega)

end Sys2Proof.Machine
end

