-- ==== Sys2Proof/Laws/Invariant.lean ====
section
/-! SUPPORT. A fresh predictor and an updated one satisfy the invariants of 10_state.md R31; what a step and a run of the
machine are, unfolded once. -/

namespace Sys2Proof.Machine

theorem toNat_indexBits {ib hb n : Nat} (h : validConfig ib hb = true) :
    (freshPredictor ib hb n).indexBits.toNat = ib := by
  have := validConfig_iff.mp h
  simp only [freshPredictor_indexBits, BitVec.toNat_ofNat]
  exact Nat.mod_eq_of_lt (by omega)

theorem toNat_historyBits {ib hb n : Nat} (h : validConfig ib hb = true) :
    (freshPredictor ib hb n).historyBits.toNat = hb := by
  have := validConfig_iff.mp h
  simp only [freshPredictor_historyBits, BitVec.toNat_ofNat]
  exact Nat.mod_eq_of_lt (by omega)

theorem toNat_indexMask {ib hb n : Nat} (h : validConfig ib hb = true) :
    (freshPredictor ib hb n).indexMask.toNat = 2 ^ ib - 1 := by
  have hc := validConfig_iff.mp h
  have : 2 ^ ib ≤ 2 ^ 32 := Nat.pow_le_pow_right (by omega) hc.2.1
  have := Nat.two_pow_pos ib
  simp only [freshPredictor_indexMask, BitVec.toNat_ofNat, maskOf]
  exact Nat.mod_eq_of_lt (by omega)

/-- What CONSTRUCT builds satisfies the invariants. -/
theorem freshPredictor_inv {ib hb : Nat} (h : validConfig ib hb = true) :
    (freshPredictor ib hb (2 ^ (ib - 2))).Inv where
  config := by rw [toNat_indexBits h, toNat_historyBits h]; exact h
  mask := by rw [toNat_indexMask h, toNat_indexBits h]
  history := by simp
  statistics := le_refl _
  counters := counter_le _
  size := by rw [toNat_indexBits h]; rfl
  canonical := rfl
  populated := by simp

/-- What an UPDATE leaves satisfies the invariants. -/
theorem updated_inv {p : Predictor} (hp : p.Inv) (hn : p.totalCount.toNat < statMax) (a : Nat)
    (o : PredictionOutcome) : (p.updated a o).Inv where
  config := hp.config
  mask := hp.mask
  history := by rw [updated_h_toNat hp]; exact shiftHistory_lt o hp.history
  statistics := by
    have hs := hp.statistics
    rw [updated_totalCount, updated_missCount, toNat_add_one hn]
    split
    · rw [toNat_add_one (by omega)]; omega
    · omega
  counters := counter_le _
  size := hp.size
  canonical := put_wf hp.canonical _ _
  populated := put_populated hp.populated (hp.selected_lt a)

theorem State.Inv_ready {s : State} {p : Predictor} (h : s.block = .ready p) :
    s.Inv ↔ s.errCode = 0 ∧ p.Inv := by
  simp [State.Inv, h]

theorem step_eq (s : State) : step s = exec (decode s.presented) s.consume := rfl

/-- A step that sees a presentation. -/
theorem step_cons {s : State} {p : Ports} {rest : List Ports} (h : s.pending = p :: rest) :
    step s = exec (decode p) (s.withPending rest) := by
  simp [step, State.presented, State.consume, h]

theorem runSteps_zero (s : State) : runSteps 0 s = .next s := rfl

theorem run_next {M : Host.Core} {s t : M.State} (n : Nat) (h : M.step s = .next t) : M.run (n + 1) s = M.run n t := by
  simp only [Host.Core.run, h]

/-- A run takes the step's next state and goes on. -/
theorem runSteps_next {n : Nat} {s t : State} (h : step s = .next t) : runSteps (n + 1) s = runSteps n t :=
  run_next (M := Sys2Proof.core) n h

theorem run_congr {M : Host.Core} {s s' : M.State} (n : Nat) (h : M.step s = M.step s') :
    M.run (n + 1) s = M.run (n + 1) s' := by
  simp only [Host.Core.run, h]

/-- Two states with the same step have the same run. -/
theorem runSteps_congr {n : Nat} {s s' : State} (h : step s = step s') : runSteps (n + 1) s = runSteps (n + 1) s' :=
  run_congr (M := Sys2Proof.core) n h

end Sys2Proof.Machine
end

