-- ==== Sys2Proof/Laws/PerInstr.lean ====
section
/-! SUPPORT. Per operation: its encoding stands on the port, and carries the fixed bits, of its row of spec/opcode_table.json. -/

namespace Sys2Proof.Laws.Encoding

/-- The port a word stands on (true for `op`, false for `t_op`) and its code. -/
def codeOf : PortWord → Bool × Nat
  | .block p => (true, p.op.toNat)
  | .table t => (false, t.tOp.toNat)

/-- "port" and "match" of the operation's row of spec/opcode_table.json. -/
def tableRow : Instr → Bool × Nat
  | .nop => (true, 0x0)
  | .construct _ _ => (true, 0x1)
  | .update _ _ => (true, 0x2)
  | .stats => (true, 0x3)
  | .ratio => (true, 0x4)
  | .peek _ => (true, 0x5)
  | .reserved6 => (true, 0x6)
  | .reserved7 => (true, 0x7)
  | .tblGet _ => (false, 0x0)
  | .tblSet _ _ => (false, 0x1)

def Statement (i : Instr) : Prop := codeOf (encode i) = tableRow i

theorem nop : Statement .nop := rfl
theorem construct (ib hb : Nat) : Statement (.construct ib hb) := rfl
theorem update (a : Nat) (o : PredictionOutcome) : Statement (.update a o) := rfl
theorem stats : Statement .stats := rfl
theorem ratio : Statement .ratio := rfl
theorem peek (i : Nat) : Statement (.peek i) := rfl
theorem reserved6 : Statement .reserved6 := rfl
theorem reserved7 : Statement .reserved7 := rfl
theorem tblGet (i : Nat) : Statement (.tblGet i) := rfl
theorem tblSet (i v : Nat) : Statement (.tblSet i v) := rfl

end Sys2Proof.Laws.Encoding
end

