-- ==== Sys2Proof/Laws/Rendering.lean ====
section
/-! SUPPORT. The two integer steps of the ratio's rendering (42_statistics.md R162): the exponent, and rounding to the nearest
integer with ties to even. -/

namespace Sys2Proof.Machine

/-- `roundHalfEven n d` is as near to `n / d` as any integer. -/
theorem roundHalfEven_nearest (n : Nat) {d : Nat} (hd : 0 < d) (j : Int) :
    |(roundHalfEven n d : Int) * d - n| ≤ |j * d - n| := by
  have hdiv : (d : Int) * (n / d : Nat) + (n % d : Nat) = n := by exact_mod_cast Nat.div_add_mod n d
  have hr : ((n % d : Nat) : Int) < d := by exact_mod_cast Nat.mod_lt n hd
  have hd' : (0 : Int) < d := by exact_mod_cast hd
  have hlow : min ((n % d : Nat) : Int) (d - (n % d : Nat)) ≤ |j * d - n| := by
    rcases le_or_gt j (n / d : Nat) with hj | hj
    · have : j * d - n ≤ -((n % d : Nat) : Int) := by nlinarith
      exact le_trans (min_le_left _ _) (le_abs.mpr (.inr (by linarith)))
    · have : ((d : Int) - (n % d : Nat)) ≤ j * d - n := by nlinarith
      exact le_trans (min_le_right _ _) (le_abs.mpr (.inl this))
  refine le_trans (abs_le.mpr ?_) hlow
  unfold roundHalfEven
  rcases Nat.lt_trichotomy (2 * (n % d)) d with h | h | h
  · rw [if_pos h, min_eq_left (by omega)]
    constructor <;> nlinarith
  · rw [if_neg (by omega), if_neg (by omega), min_eq_left (by omega)]
    have h' : 2 * ((n % d : Nat) : Int) = d := by omega
    have hp : ((n / d % 2 : Nat) : Int) = 0 ∨ ((n / d % 2 : Nat) : Int) = 1 := by omega
    rw [Nat.cast_add]
    rcases hp with hp | hp <;> rw [hp] <;> constructor <;> nlinarith
  · rw [if_neg (by omega), if_pos h, min_eq_right (by omega)]
    rw [Nat.cast_add, Nat.cast_one]
    constructor <;> nlinarith

/-- Where another integer is as near, `roundHalfEven` answers the even one. -/
theorem roundHalfEven_even (n : Nat) {d : Nat} (hd : 0 < d) {j : Int}
    (h : |(roundHalfEven n d : Int) * d - n| = |j * d - n|) (hj : j ≠ roundHalfEven n d) :
    roundHalfEven n d % 2 = 0 := by
  have hd' : (0 : Int) < d := by exact_mod_cast hd
  have hr : n % d < d := Nat.mod_lt n hd
  have hdiv : (d : Int) * (n / d : Nat) + (n % d : Nat) = n := by exact_mod_cast Nat.div_add_mod n d
  have hsum : ((roundHalfEven n d : Int) + j) * d = 2 * n := by
    rcases abs_eq_abs.mp h with h | h
    · exact absurd (mul_right_cancel₀ hd'.ne' (by linarith : j * (d : Int) = (roundHalfEven n d : Int) * d)) hj
    · linarith
  have hq : ((roundHalfEven n d : Int) + j - 2 * (n / d : Nat)) * d = 2 * (n % d : Nat) := by nlinarith
  have hbound : ((roundHalfEven n d : Int) + j - 2 * (n / d : Nat)) = 0 ∨
      ((roundHalfEven n d : Int) + j - 2 * (n / d : Nat)) = 1 := by
    have hr' : ((n % d : Nat) : Int) < d := by exact_mod_cast hr
    have h0 : (0 : Int) ≤ (n % d : Nat) := by positivity
    have h1 : (0 : Int) ≤ (roundHalfEven n d : Int) + j - 2 * (n / d : Nat) := by nlinarith
    have h2 : ((roundHalfEven n d : Int) + j - 2 * (n / d : Nat)) < 2 := by nlinarith
    omega
  rcases hbound with hb | hb
  · rw [hb] at hq
    have hm : n % d = 0 := by omega
    have : roundHalfEven n d = n / d := by unfold roundHalfEven; rw [if_pos (by omega)]
    rw [this] at hb hj
    omega
  · rw [hb] at hq
    have hm : 2 * (n % d) = d := by omega
    have : roundHalfEven n d = n / d + n / d % 2 := by
      unfold roundHalfEven; rw [if_neg (by omega), if_neg (by omega)]
    omega

theorem zpow_toNat (e : Int) : (2 : Rat) ^ e * 2 ^ (-e).toNat = 2 ^ e.toNat := by
  rcases le_or_gt 0 e with h | h
  · obtain ⟨k, rfl⟩ := Int.eq_ofNat_of_zero_le h
    simp
  · obtain ⟨k, hk⟩ := Int.eq_ofNat_of_zero_le (a := -e) (by omega)
    have he : e = -(k : Int) := by omega
    subst he
    simp [zpow_neg]

/-- `d * 2^e ≤ n`, without fractions. -/
theorem le_zpow_iff (n d : Nat) (e : Int) :
    d * 2 ^ e.toNat ≤ n * 2 ^ (-e).toNat ↔ (d : Rat) * 2 ^ e ≤ n := by
  have hpos : (0 : Rat) < 2 ^ (-e).toNat := by positivity
  rw [← mul_le_mul_iff_left₀ hpos, mul_assoc, zpow_toNat]
  exact_mod_cast Iff.rfl

/-- The exponent of a positive quotient: `2^e ≤ n/d < 2^(e+1)`. -/
theorem floorLog2_spec {n d : Nat} (hn : 0 < n) (hd : 0 < d) :
    (d : Rat) * 2 ^ floorLog2 n d ≤ n ∧ (n : Rat) < d * 2 ^ (floorLog2 n d + 1) := by
  have hn1 : (2 : Rat) ^ (n.log2 : Int) ≤ n := by
    rw [zpow_natCast]; exact_mod_cast Nat.log2_self_le hn.ne'
  have hn2 : (n : Rat) < 2 ^ ((n.log2 : Int) + 1) := by
    have : n < 2 ^ (n.log2 + 1) := Nat.lt_log2_self
    have h : ((n.log2 : Int) + 1) = ((n.log2 + 1 : Nat) : Int) := by push_cast; ring
    rw [h, zpow_natCast]; exact_mod_cast this
  have hd1 : (2 : Rat) ^ (d.log2 : Int) ≤ d := by
    rw [zpow_natCast]; exact_mod_cast Nat.log2_self_le hd.ne'
  have hd2 : (d : Rat) < 2 ^ ((d.log2 : Int) + 1) := by
    have : d < 2 ^ (d.log2 + 1) := Nat.lt_log2_self
    have h : ((d.log2 : Int) + 1) = ((d.log2 + 1 : Nat) : Int) := by push_cast; ring
    rw [h, zpow_natCast]; exact_mod_cast this
  have two : (2 : Rat) ≠ 0 := by norm_num
  have low : (d : Rat) * 2 ^ ((n.log2 : Int) - d.log2 - 1) ≤ n := by
    refine le_trans (mul_le_mul_of_nonneg_right hd2.le (by positivity)) ?_
    rw [← zpow_add₀ two]
    have : (d.log2 : Int) + 1 + ((n.log2 : Int) - d.log2 - 1) = n.log2 := by ring
    rw [this]; exact hn1
  have high : (n : Rat) < d * 2 ^ ((n.log2 : Int) - d.log2 + 1) := by
    refine lt_of_lt_of_le hn2 (le_trans (le_of_eq ?_) (mul_le_mul_of_nonneg_right hd1 (by positivity)))
    rw [← zpow_add₀ two]
    congr 1; ring
  unfold floorLog2
  simp only [le_zpow_iff]
  split
  · next h => exact ⟨h, high⟩
  · next h =>
    refine ⟨low, ?_⟩
    rw [sub_add_cancel]
    exact not_le.mp h

end Sys2Proof.Machine
end

