-- ==== Sys2Proof/Tests/Slice0.lean ====
section
/-! SUPPORT. Tests whose expected results are the spec's own (95_test_vectors.md, named by their ids), and, for each statement with
hypotheses, a witness that meets them. -/

namespace Sys2Proof.Tests

open Sys2Proof Sys2Proof.Machine

/-! ### WellFormed refuses an operand that its port cannot carry -/

theorem test_wf_construct_index_bits : (Instr.construct 64 0).wf = false := by decide
theorem test_wf_construct_history_bits : (Instr.construct 16 64).wf = false := by decide
theorem test_wf_update_address : (Instr.update (2 ^ 64) .taken).wf = false := by decide
theorem test_wf_peek_index : (Instr.peek (2 ^ 33)).wf = false := by decide
theorem test_wf_tblGet_index : (Instr.tblGet (2 ^ 33)).wf = false := by decide
theorem test_wf_tblSet_index : (Instr.tblSet (2 ^ 33) 0).wf = false := by decide
theorem test_wf_tblSet_value : (Instr.tblSet 0 8).wf = false := by decide

/-! ### Words written out from 30_encoding.md R79, R80, R87 and the programs P1, P8, and T16 to T19a -/

theorem test_decode_nop : decode ⟨0b000, 0, 0, 0, 0, 0⟩ = .nop := by decide
theorem test_decode_construct : decode ⟨0b001, 16, 4, 0, 0, 0⟩ = .construct 16 4 := by decide
theorem test_decode_update_taken : decode ⟨0b010, 0, 0, 0xDEADBEEF, 1, 0⟩ = .update 0xDEADBEEF .taken := by decide
theorem test_decode_update_not_taken : decode ⟨0b010, 0, 0, 0x100000000, 0, 0⟩ = .update 0x100000000 .notTaken := by
  decide
theorem test_decode_stats : decode ⟨0b011, 0, 0, 0, 0, 0⟩ = .stats := by decide
theorem test_decode_ratio : decode ⟨0b100, 0, 0, 0, 0, 0⟩ = .ratio := by decide
theorem test_decode_peek : decode ⟨0b101, 0, 0, 0, 0, 0x1ABCD⟩ = .peek 0x1ABCD := by decide
theorem test_decode_reserved6 : decode ⟨0b110, 0, 0, 0, 0, 0⟩ = .reserved6 := by decide
theorem test_decode_reserved7 : decode ⟨0b111, 0, 0, 0, 0, 0⟩ = .reserved7 := by decide
theorem test_decode_tblGet : decodeTable ⟨0b0, 65536, 0⟩ = .tblGet 65536 := by decide
theorem test_decode_tblSet : decodeTable ⟨0b1, 65536, 5⟩ = .tblSet 65536 5 := by decide

/-- Ports an operation does not use are ignored (30_encoding.md R79). -/
theorem test_decode_ignores_unused_ports : decode ⟨0b011, 16, 4, 0xFF, 1, 7⟩ = .stats := by decide

theorem test_decodeTableWord : (List.range 8).map (decodeTableWord 8) =
    [some .nop, some (.construct 0 0), some (.update 0 .notTaken), some .stats, some .ratio, some (.peek 0),
     some .reserved6, some .reserved7] := by decide

/-! ### Small states -/

/-- A fresh predictor. -/
def fresh (ib hb : Nat) : Predictor := freshPredictor ib hb (2 ^ (ib - 2))

/-- A `Ready` block with nothing presented and nothing driven. -/
def ready (p : Predictor) : State := { block := .ready p, errCode := 0, out := Outputs.idle, pending := [] }

/-- A fresh 16-bit predictor whose first unit is `b`. -/
def withUnit0 (b : StorageUnit) : Predictor := { fresh 16 0 with table := { nunits := 16384, units := [(0, b)] } }

/-- A fresh predictor with other statistics. -/
def counted (miss total : Nat) : Predictor :=
  { fresh 16 0 with missCount := BitVec.ofNat _ miss, totalCount := BitVec.ofNat _ total }

/-! ### One step each -/

/-- T72. -/
theorem test_nop_at_power_on : step (State.reset.present ⟨0b000, 0, 0, 0, 0, 0⟩) = .next State.reset := rfl

/-- T22: the largest configuration. -/
theorem test_construct_largest : execConstruct 32 32 State.reset = .next (ready
    { indexBits := 32, historyBits := 32, indexMask := 0xFFFFFFFF, h := 0, missCount := 0, totalCount := 0,
      table := { nunits := 1073741824, units := [] } }) := rfl

/-- P8 line 9: ConfigError on a faulted block. -/
theorem test_construct_config_error :
    execConstruct 15 0 { ready (fresh 17 1) with block := .faulted (fresh 17 1), errCode := 2 } =
      .next { State.reset with errCode := 1 } := rfl

/-- P8 line 2. -/
theorem test_update_taken : execUpdate 0x1ABCD .taken (ready (fresh 17 1)) = .next (ready
    { fresh 17 1 with h := 1, totalCount := 1, table := { nunits := 32768, units := [(0x6AF3, 0xAE)] } }) := rfl

/-- P8 line 3: another address, the same counter through the history; the unit is back at 0xAA and no longer listed. -/
theorem test_update_not_taken :
    execUpdate 0x0ABCD .notTaken (ready
      { fresh 17 1 with h := 1, totalCount := 1, table := { nunits := 32768, units := [(0x6AF3, 0xAE)] } }) =
    .next (ready { fresh 17 1 with missCount := 1, totalCount := 2 }) := rfl

/-- T80 and V2. -/
theorem test_stats : execStats (ready (counted 1 4)) =
    .next { ready (counted 1 4) with out := { Outputs.idle with missCount := some 1, totalCount := some 4 } } := rfl

/-- T66: 500/9 and its binary64 rendering. -/
theorem test_ratio_exact : (ratioOutOf 5 9) = ⟨mkRat 500 9, 0x404bc71c71c71c72⟩ := by decide +kernel

/-- T60: no events. -/
theorem test_ratio_of_nothing : execRatio (ready (fresh 16 0)) =
    .next { ready (fresh 16 0) with out := { Outputs.idle with ratio := some ⟨0, 0⟩ } } := rfl

/-- P4 line 11, with `U[0] = 0x8A`. -/
theorem test_peek : execPeek 2 (ready (withUnit0 0x8A)) =
    .next { ready (withUnit0 0x8A) with out := { Outputs.idle with peekValue := some 0 } } := rfl

/-- T76. -/
theorem test_peek_out_of_range : execPeek 0x10000 (ready (fresh 16 0)) =
    .next { ready (fresh 16 0) with block := .faulted (fresh 16 0), errCode := 2 } := rfl

/-- T2: `TblGet(3)` on 0x87. -/
theorem test_tblGet : (withUnit0 0x87).table.get 3 = .ok 2 := rfl

/-- T18. -/
theorem test_tblGet_out_of_range : (fresh 16 0).table.get 65536 = .error (.tableIndexOutOfRange 65536) := rfl

/-- T13. -/
theorem test_tblSet : execTblSet 1 2 (ready (withUnit0 0x87)) = .next (ready (withUnit0 0x8B)) := rfl

/-- T19: the index is tested before the value. -/
theorem test_tblSet_priority : (fresh 16 0).table.set 65536 5 = .error (.tableIndexOutOfRange 65536) := rfl

/-- T41: full-width history, address bits above 32 ignored. -/
theorem test_index_widest :
    ({ fresh 32 32 with h := 0xFFFFFFFF }).hashedIndex 0xFFFFFFFFFFFFFFFF = 0 := by decide

/-- T36: the history reaches into the column. -/
theorem test_index_history_in_column : ({ fresh 16 15 with h := 1 }).hashedIndex 3 = 1 := by decide

/-- T58b. -/
theorem test_history_top_bit : shiftHistory 32 .taken 0x80000000 = 0xC0000000 := by decide

/-! ### Witnesses: the hypotheses of each statement are met -/

theorem fresh_inv {ib hb : Nat} (h : validConfig ib hb = true) : (fresh ib hb).Inv := freshPredictor_inv h

theorem fresh_enabled {ib hb : Nat} (h : validConfig ib hb = true) : UpdateEnabled (ready (fresh ib hb)) (fresh ib hb) :=
  ⟨rfl, fresh_inv h, by simp only [fresh, freshPredictor_totalCount]; decide⟩

/-- The predictor after one taken event at address 0: counter 0 is 3 and the newest history bit is set. -/
def afterTaken (hb : Nat) : Predictor := (fresh 16 hb).updated 0 .taken

theorem afterTaken_enabled {hb : Nat} (h : validConfig 16 hb = true) :
    UpdateEnabled (ready (afterTaken hb)) (afterTaken hb) :=
  ⟨rfl, updated_inv (fresh_inv h) (by simp only [fresh, freshPredictor_totalCount]; decide) 0 .taken,
   by simp only [afterTaken, updated_totalCount, fresh, freshPredictor_totalCount]; decide⟩

/-- The predictor after two not-taken events at address 0, no history: counter 0 is 0. -/
def afterTwoNotTaken : Predictor := ((fresh 16 0).updated 0 .notTaken).updated 0 .notTaken

theorem afterTwoNotTaken_enabled : UpdateEnabled (ready afterTwoNotTaken) afterTwoNotTaken :=
  ⟨rfl, updated_inv (updated_inv (fresh_inv (by decide))
      (by simp only [fresh, freshPredictor_totalCount]; decide) 0 .notTaken)
      (by simp only [updated_totalCount, fresh, freshPredictor_totalCount]; decide) 0 .notTaken,
   by simp only [afterTwoNotTaken, updated_totalCount, fresh, freshPredictor_totalCount]; decide⟩

theorem test_witness_DecodeOfEncodeIsTheOperation :
    (Instr.construct 63 63).wf = true ∧ (Instr.update (2 ^ 64 - 1) .taken).wf = true ∧
    (Instr.peek (2 ^ 33 - 1)).wf = true ∧ (Instr.tblGet (2 ^ 33 - 1)).wf = true ∧
    (Instr.tblSet (2 ^ 33 - 1) 7).wf = true ∧ Instr.nop.wf = true := by decide

theorem test_witness_EncodeOfDecodeKeepsTheUsedPorts :
    (⟨1, 63, 63, 0, 0, 0⟩ : Ports).op = 1 ∧ (⟨2, 0, 0, 5, 1, 0⟩ : Ports).op = 2 ∧
    (⟨5, 0, 0, 0, 0, 7⟩ : Ports).op = 5 := by decide

theorem test_witness_StepRunsThePresentedOperation :
    (Instr.update 7 .taken).wf = true ∧ encode (.update 7 .taken) = .block (portsOf (.update 7 .taken)) ∧
    (State.reset.present (portsOf (.update 7 .taken))).pending = [portsOf (.update 7 .taken)] ∧
    State.reset.pending = [] := by decide

theorem test_witness_OutsideReadyOnlyConstructAndNopRun :
    State.reset.phase ≠ .ready ∧ Instr.stats ≠ .nop ∧ (∀ ib hb, Instr.stats ≠ .construct ib hb) :=
  ⟨by decide, by decide, by simp⟩

theorem test_witness_OnlyConstructMakesTheBlockReady :
    ∃ t, step (State.reset.present (portsOf (.construct 16 4))) = .next t ∧
      (State.reset.present (portsOf (.construct 16 4))).phase ≠ .ready ∧ t.phase = .ready :=
  ⟨ready (fresh 16 4), rfl, by decide, rfl⟩

theorem test_witness_ConstructCompletesWithTheResetValues :
    validConfig 16 0 = true ∧ validConfig 16 16 = true ∧ validConfig 32 0 = true ∧ validConfig 32 32 = true := by
  decide

theorem test_witness_ConstructRefusesToBuildAnInvalidConfiguration :
    (∀ c ∈ [(15, 0), (33, 0), (32, 33), (16, 17)],
      c.1 < 16 ∨ 32 < c.1 ∨ 32 < c.2 ∨ c.1 < c.2) ∧
    (Instr.ratio ≠ .nop ∧ ∀ ib hb, Instr.ratio ≠ .construct ib hb) :=
  ⟨by decide, by simp⟩

theorem test_witness_SizeGuardIsDeadAfterValidation :
    validConfig 32 0 = true ∧ Config.pow2MaxExp < 32 ∧ ∃ t, exec (.construct 15 0) State.reset = .next t :=
  ⟨by decide, by decide, _, rfl⟩

theorem test_witness_RunAfterConstructForgetsThePast :
    (portsOf (.construct 16 4)).op = 1 ∧
    (State.reset.present (portsOf (.construct 16 4))).pending = [portsOf (.construct 16 4)] ∧
    ((ready (afterTaken 4)).present (portsOf (.construct 16 4))).pending = [portsOf (.construct 16 4)] := by
  decide

/-- UpdateMovesExactlyTheSelectedCounter, UpdateCountsEveryEventAndEveryMiss, UpdateTableAccessesAreInRange and
MasksOfTheFoldAreTheIdentity: with and without history, at a counter of 2, of 3 (saturating on T) and of 0 (on N). -/
theorem test_witness_UpdateEnabled :
    UpdateEnabled (ready (fresh 32 32)) (fresh 32 32) ∧
    UpdateEnabled (ready (afterTaken 4)) (afterTaken 4) ∧ (afterTaken 4).h = 8 ∧
    (UpdateEnabled (ready (afterTaken 0)) (afterTaken 0) ∧ (afterTaken 0).selectedCounter 0 = 0 ∧
      (afterTaken 0).table.counter 0 = 3) ∧
    (UpdateEnabled (ready afterTwoNotTaken) afterTwoNotTaken ∧ afterTwoNotTaken.selectedCounter 0 = 0 ∧
      afterTwoNotTaken.table.counter 0 = 0) :=
  ⟨fresh_enabled (by decide), afterTaken_enabled (by decide), rfl, ⟨afterTaken_enabled (by decide), rfl, rfl⟩,
   afterTwoNotTaken_enabled, rfl, rfl⟩

/-- The three ranges of `historyBits`: 0, 1 and more. -/
theorem test_witness_UpdateShiftsTheOutcomeIntoTheTop :
    (UpdateEnabled (ready (fresh 16 0)) (fresh 16 0) ∧ (fresh 16 0).historyBits.toNat = 0) ∧
    (UpdateEnabled (ready (afterTaken 1)) (afterTaken 1) ∧ (afterTaken 1).historyBits.toNat = 1) ∧
    (UpdateEnabled (ready (afterTaken 16)) (afterTaken 16) ∧ 0 < (afterTaken 16).historyBits.toNat ∧
      14 + 1 < (afterTaken 16).historyBits.toNat) :=
  ⟨⟨fresh_enabled (by decide), rfl⟩, ⟨afterTaken_enabled (by decide), rfl⟩, afterTaken_enabled (by decide),
   by decide, by decide⟩

/-- With history (an address under the history 8), and without (any other history completes too). -/
theorem test_witness_UpdateFoldsTheOldHistoryAndStepsOneCounter :
    (∃ t q, (ready (afterTaken 4)).block = .ready (afterTaken 4) ∧ (afterTaken 4).table.units.wf = true ∧
      exec (.update 0x8000 .taken) (ready (afterTaken 4)) = .next t ∧ t.block = .ready q) ∧
    (∃ t q t' q', (ready (fresh 16 0)).block = .ready (fresh 16 0) ∧ (fresh 16 0).table.units.wf = true ∧
      exec (.update 5 .notTaken) (ready (fresh 16 0)) = .next t ∧ t.block = .ready q ∧ (fresh 16 0).historyBits = 0 ∧
      exec (.update 5 .notTaken) (ready { fresh 16 0 with h := 7 }) = .next t' ∧ t'.block = .ready q') :=
  ⟨⟨_, _, rfl, by decide, rfl, rfl⟩, ⟨_, _, _, _, rfl, by decide, rfl, rfl, rfl, rfl, rfl⟩⟩

/-- Each outcome on both sides of the comparator: counters 2 and 3, 1 and 0. -/
theorem test_witness_UpdateMissesWhenTheOldCounterPredictsOtherwise :
    ∀ c ∈ [(0xA8, 0), (0xA9, 1), (0xAA, 2), (0xAB, 3)], ∀ o ∈ [PredictionOutcome.notTaken, .taken],
      (ready (withUnit0 c.1)).block = .ready (withUnit0 c.1) ∧
      (withUnit0 c.1).missCount.toNat ≤ (withUnit0 c.1).totalCount.toNat ∧
      (withUnit0 c.1).table.get ((withUnit0 c.1).selectedCounter 0) = .ok c.2 ∧
      ∃ t q, exec (.update 0 o) (ready (withUnit0 c.1)) = .next t ∧ t.block = .ready q := by
  intro c hc o ho
  fin_cases hc <;> fin_cases ho <;> exact ⟨rfl, by decide, rfl, _, _, rfl, rfl⟩

theorem test_witness_UpdateSeesOnlyTheLowAddressBits :
    (ready (fresh 16 4)).block = .ready (fresh 16 4) ∧
    (fresh 16 4).indexMask.toNat = 2 ^ (fresh 16 4).indexBits.toNat - 1 ∧
    0x10003 % 2 ^ (fresh 16 4).indexBits.toNat = 0x3 % 2 ^ (fresh 16 4).indexBits.toNat := by decide

theorem test_witness_UpdateRaisesWhereTheTableIsTooSmall :
    let p : Predictor := { fresh 16 0 with table := { nunits := 1, units := [] } }
    (ready p).block = .ready p ∧ p.totalCount.toNat ≠ statMax ∧
    validConfig p.indexBits.toNat p.historyBits.toNat = true ∧ p.table.ncounters ≤ p.selectedCounter 4 := by decide

/-- P3: two addresses under two histories. -/
theorem test_witness_AliasingCriterion :
    (fresh 16 4).Inv ∧ (afterTaken 4).Inv ∧ (afterTaken 4).indexBits = (fresh 16 4).indexBits ∧
    (afterTaken 4).historyBits = (fresh 16 4).historyBits ∧
    (fresh 16 4).selectedCounter 0x0000 = (afterTaken 4).selectedCounter 0x8000 :=
  ⟨fresh_inv (by decide), (afterTaken_enabled (by decide)).inv, rfl, rfl, by decide⟩

theorem test_witness_WithoutHistoryTheRegisterIsInert :
    UpdateEnabled (ready (fresh 16 0)) (fresh 16 0) ∧ (fresh 16 0).historyBits = 0 :=
  ⟨fresh_enabled (by decide), rfl⟩

theorem test_witness_UpdatesOfDifferentCountersCommuteWithoutHistory :
    UpdateEnabled (ready (fresh 16 0)) (fresh 16 0) ∧ (fresh 16 0).totalCount.toNat + 1 < statMax ∧
    (fresh 16 0).historyBits = 0 ∧ (fresh 16 0).selectedCounter 0 ≠ (fresh 16 0).selectedCounter 1 :=
  ⟨fresh_enabled (by decide), by decide, rfl, by decide⟩

theorem test_witness_UpdateIsRefusedWhenTheStatisticsAreFull :
    (ready (counted 0 (2 ^ 64 - 1))).block = .ready (counted 0 (2 ^ 64 - 1)) ∧
    (counted 0 (2 ^ 64 - 1)).totalCount.toNat = 2 ^ Config.statW - 1 := by decide

theorem test_witness_StatsDrivesTheTwoCounters : (ready (counted 1 4)).block = .ready (counted 1 4) := rfl

theorem test_witness_RatioDrivesTheExactPercentage :
    (ready (counted 0 0)).block = .ready (counted 0 0) ∧ (counted 0 0).totalCount.toNat = 0 ∧
    (counted 4 4).totalCount.toNat ≠ 0 ∧ (counted 4 4).missCount.toNat = (counted 4 4).totalCount.toNat ∧
    (counted 1 3).missCount.toNat ≤ (counted 1 3).totalCount.toNat := by decide

theorem test_witness_RenderedRatioIsNearestBinary64 :
    ∃ t r, (ready (afterTaken 4)).block = .ready (afterTaken 4) ∧ (afterTaken 4).Inv ∧
      exec .ratio (ready (afterTaken 4)) = .next t ∧ t.out.ratio = some r :=
  ⟨_, _, rfl, (afterTaken_enabled (by decide)).inv, rfl, rfl⟩

/-- PeekDrivesTheCounter, PeekOutsideTheTableFaultsTheBlock, TblGetReadsItsField: the last index and the first beyond. -/
theorem test_witness_table_bounds :
    (ready (fresh 16 0)).block = .ready (fresh 16 0) ∧ 65535 < (fresh 16 0).table.ncounters ∧
    (fresh 16 0).table.ncounters ≤ 65536 ∧ validConfig 16 0 = true := by decide

theorem test_witness_ReadOnlyOperationsLeaveNoTrace :
    (∃ t, exec .stats (ready (fresh 16 0)) = .next t ∧ t.phase = (ready (fresh 16 0)).phase) ∧
    (∃ t, exec .ratio (ready (fresh 16 0)) = .next t ∧ t.phase = (ready (fresh 16 0)).phase) ∧
    (∃ t, exec (.peek 65535) (ready (fresh 16 0)) = .next t ∧ t.phase = (ready (fresh 16 0)).phase) ∧
    (∃ t, exec .nop State.reset = .next t ∧ t.phase = State.reset.phase) :=
  ⟨⟨_, rfl, rfl⟩, ⟨_, rfl, rfl⟩, ⟨_, rfl, rfl⟩, _, rfl, rfl⟩

theorem test_witness_TblSetWritesOnlyItsField :
    (ready (fresh 16 0)).block = .ready (fresh 16 0) ∧ (fresh 16 0).table.units.wf = true ∧
    (65535 < (fresh 16 0).table.ncounters ∧ 3 ≤ 3) ∧ (fresh 16 0).table.ncounters ≤ 65536 ∧
    (0 < (fresh 16 0).table.ncounters ∧ 3 < 4) := by decide

theorem test_witness_TableGetSetLaws :
    (withUnit0 0x87).table.units.wf = true ∧ 3 < (withUnit0 0x87).table.ncounters ∧
    (withUnit0 0x87).table.get 3 = .ok 2 := ⟨by decide, by decide, rfl⟩

/-- StepKeepsTheInvariant: an UPDATE on a `Ready` block, a CONSTRUCT at power-on, a PEEK that faults. -/
theorem test_witness_StepKeepsTheInvariant :
    (∃ t, ((ready (fresh 16 4)).present (portsOf (.update 0 .taken))).Inv ∧
      step ((ready (fresh 16 4)).present (portsOf (.update 0 .taken))) = .next t) ∧
    (∃ t, (State.reset.present (portsOf (.construct 32 32))).Inv ∧
      step (State.reset.present (portsOf (.construct 32 32))) = .next t) ∧
    (∃ t, ((ready (fresh 16 4)).present (portsOf (.peek 65536))).Inv ∧
      step ((ready (fresh 16 4)).present (portsOf (.peek 65536))) = .next t) :=
  ⟨⟨_, ⟨rfl, fresh_inv (by decide)⟩, rfl⟩, ⟨_, .inl rfl, rfl⟩, _, ⟨rfl, fresh_inv (by decide)⟩, rfl⟩

theorem test_witness_EveryOperationKeepsTheCanonicalForm :
    (ready (withUnit0 0x87)).memory.wf = true ∧ ∃ t, exec (.tblSet 0 1) (ready (withUnit0 0x87)) = .next t :=
  ⟨by decide, _, rfl⟩

theorem test_witness_ErrorsComeOnlyFromPeekAndConstruct :
    (∃ t, ((ready (fresh 16 0)).present (portsOf (.peek 65536))).Inv ∧
      step ((ready (fresh 16 0)).present (portsOf (.peek 65536))) = .next t ∧ t.errCode = 2 ∧
      ((ready (fresh 16 0)).present (portsOf (.peek 65536))).errCode ≠ 2) ∧
    (∃ t, ((ready (fresh 16 0)).present (portsOf (.construct 15 0))).Inv ∧
      step ((ready (fresh 16 0)).present (portsOf (.construct 15 0))) = .next t ∧ t.errCode = 1 ∧
      ((ready (fresh 16 0)).present (portsOf (.construct 15 0))).errCode ≠ 1) :=
  ⟨⟨_, ⟨rfl, fresh_inv (by decide)⟩, rfl, rfl, by decide⟩,
   ⟨_, ⟨rfl, fresh_inv (by decide)⟩, rfl, rfl, by decide⟩⟩

theorem test_witness_OnlyUpdateAndConstructChangeThePredictor :
    ∃ t, step ((ready (fresh 16 0)).present (portsOf (.peek 65536))) = .next t ∧
      (∀ a o, decode ((ready (fresh 16 0)).present (portsOf (.peek 65536))).presented ≠ .update a o) ∧
      (∀ ib hb, decode ((ready (fresh 16 0)).present (portsOf (.peek 65536))).presented ≠ .construct ib hb) := by
  refine ⟨_, rfl, ?_, ?_⟩ <;> intro _ _ h <;> cases h

theorem test_witness_ConfigurationIsFixedAndStatisticsGrow :
    ∃ t q, ((ready (fresh 16 4)).present (portsOf (.update 0 .notTaken))).Inv ∧
      step ((ready (fresh 16 4)).present (portsOf (.update 0 .notTaken))) = .next t ∧ t.block = .ready q ∧
      ∀ ib hb, decode ((ready (fresh 16 4)).present (portsOf (.update 0 .notTaken))).presented ≠ .construct ib hb :=
  ⟨_, _, ⟨rfl, fresh_inv (by decide)⟩, rfl, rfl, fun _ _ h => by cases h⟩

/-- A schedule of every admitted operation, from a fresh block. -/
theorem test_witness_AdmittedSchedulesRunToTheirEnd :
    let ops : List Instr := [.nop, .update 0 .taken, .peek 65535, .stats, .ratio]
    let s := (ready (fresh 16 0)).withPending (ops.map portsOf ++ [])
    s.Inv ∧ s.block = .ready (fresh 16 0) ∧ s.pending = ops.map portsOf ++ [] ∧
    (∀ i ∈ ops, i.wf = true ∧ (i = .nop ∨ i = .stats ∨ i = .ratio ∨ (∃ a o, i = .update a o) ∨
      ∃ k, i = .peek k ∧ k < (fresh 16 0).table.ncounters)) ∧
    (fresh 16 0).totalCount.toNat + ops.countP isUpdate ≤ statMax := by
  refine ⟨⟨rfl, fresh_inv (by decide)⟩, rfl, rfl, ?_, by decide⟩
  intro i hi
  simp only [List.mem_cons, List.not_mem_nil, or_false] at hi
  rcases hi with rfl | rfl | rfl | rfl | rfl
  · exact ⟨by decide, .inl rfl⟩
  · exact ⟨by decide, .inr (.inr (.inr (.inl ⟨_, _, rfl⟩)))⟩
  · exact ⟨by decide, .inr (.inr (.inr (.inr ⟨_, rfl, by decide⟩)))⟩
  · exact ⟨by decide, .inr (.inl rfl)⟩
  · exact ⟨by decide, .inr (.inr (.inl rfl))⟩

/-- RunMatchesTheLogicalPredictor and HistoryHoldsTheMostRecentOutcomes: the first two events of P3, presented to a block that is
`Faulted`. -/
theorem test_witness_PresentsRun :
    PresentsRun
      { ready (fresh 17 1) with
        block := .faulted (fresh 17 1), errCode := 2,
        pending := [portsOf (.construct 16 4), eventPorts (0x0000, .taken), eventPorts (0x8000, .taken)] }
      16 4 [(0x0000, .taken), (0x8000, .taken)] [] :=
  ⟨by decide, by decide, by decide, rfl⟩

end Sys2Proof.Tests
end

section
/-! SUPPORT. A read outside the table: the fault it raises, what a faulted block answers, and the way out. -/

namespace Sys2Proof.Machine

/-- A PEEK at or above the size raises (42_statistics.md R163, 40_table_ops.md R101). -/
theorem execPeek_outside {s : State} {p : Predictor} {i : Nat} (hs : s.block = .ready p)
    (hi : p.table.ncounters ≤ i) : execPeek i s = .next (raise (.tableIndexOutOfRange i) s) := by
  rw [execPeek, whenReady_ready hs, get_error hi, orRaise]

/-- An index error is fatal on a `Ready` block (60_exceptions.md R182, R186). -/
theorem raise_tableIndexOutOfRange_phase {s : State} {p : Predictor} (hs : s.block = .ready p) (i : Nat) :
    (raise (.tableIndexOutOfRange i) s).phase = .faulted := by
  simp [State.phase, hs]

theorem phasePort_of_faulted {s : State} (h : s.phase = .faulted) : s.phasePort = 0b10 := by
  simp [State.phasePort, h]

/-- The refusals of a faulted block (60_exceptions.md R186, R192). -/
theorem exec_refused_of_faulted {s : State} {j : Instr} (h : s.phase = .faulted) (hn : j ≠ .nop)
    (hc : ∀ ib hb, j ≠ .construct ib hb) :
    exec j s = .refused .blockFaulted ∨ exec j s = .refused .reservedOperationCode := by
  have hready : s.phase ≠ .ready := by simp [h]
  rcases exec_outside_ready hready hn hc with hres | ⟨hun, -⟩ | ⟨-, hfault⟩
  · exact .inr hres
  · rw [h] at hun
    cases hun
  · exact .inl hfault

/-- The way out of every state (60_exceptions.md R188). -/
theorem exec_construct_successful {ib hb : Nat} (h : validConfig ib hb = true) (s : State) :
    ∃ t, exec (.construct ib hb) s = .next t ∧ t.successful = true :=
  ⟨_, execConstruct_valid h s, rfl⟩

/-- Settles O30: the PEEK ends in `raise`, and what the statement says of its state are the rules about a raised index error,
about a faulted block and about CONSTRUCT. -/
theorem peekOutsideTheTableFaultsTheBlock : Obligations.PeekOutsideTheTableFaultsTheBlock := by
  unfold Obligations.PeekOutsideTheTableFaultsTheBlock
  intro s p i hs hi
  have hfaulted := raise_tableIndexOutOfRange_phase hs i
  refine ⟨raise (.tableIndexOutOfRange i) s, execPeek_outside hs hi, hfaulted, phasePort_of_faulted hfaulted,
    raise_errCode _ _, raise_out _ _, raise_pending _ _, ?refusals, ?recovery⟩
  case refusals => exact fun _ => exec_refused_of_faulted hfaulted
  case recovery => exact fun _ _ hvalid => exec_construct_successful hvalid _

end Sys2Proof.Machine
end

section
/-! SUPPORT. The table's operations on a `Ready` block: the value of the unit a write leaves, what TBL_GET and TBL_SET answer inside
the table, and the errors they raise (40_table_ops.md R101, R104). -/

namespace Sys2Proof.Machine

/-! ### One unit -/

/-- A unit with one field replaced fits its eight bits, so mask-clear and mask-write lose nothing (20_memory.md R55). -/
theorem withFieldAt_toNat (b : StorageUnit) {s v : Nat} (hs : s < 4) (hv : v ≤ 3) :
    (withFieldAt b (2 * s) v).toNat = (b.toNat &&& (0xFF - (3 <<< (2 * s)))) ||| (v <<< (2 * s)) := by
  have hclear : b.toNat &&& (0xFF - (3 <<< (2 * s))) < 2 ^ 8 := lt_of_le_of_lt Nat.and_le_left b.isLt
  have hwrite : v <<< (2 * s) < 2 ^ 8 := by
    rw [Nat.shiftLeft_eq]
    calc v * 2 ^ (2 * s) ≤ 3 * 2 ^ 6 := Nat.mul_le_mul hv (Nat.pow_le_pow_right (by omega) (by omega))
      _ < 2 ^ 8 := by norm_num
  rw [withFieldAt, BitVec.toNat_ofNat, Nat.mod_eq_of_lt (Nat.or_lt_two_pow hclear hwrite)]

/-- The unit that holds the counter written. -/
theorem read_put_same {t : Table} (ht : t.units.wf = true) (i v : Nat) :
    (t.put i v).units.read (unitOf i) = withFieldAt (t.units.read (unitOf i)) (offsetOf i) v :=
  Memory.read_write_same ht _ _

/-- A counter's value fits the two bits of the port `t_value_out` (30_encoding.md R87). -/
theorem toNat_ofNat_counter (t : Table) (i : Nat) : (BitVec.ofNat 2 (t.counter i)).toNat = t.counter i := by
  rw [BitVec.toNat_ofNat]
  exact Nat.mod_eq_of_lt (Nat.lt_succ_of_le (counter_le t i))

/-! ### The errors of TblSet, in their order (40_table_ops.md R104) -/

theorem set_index_error {t : Table} {i : Nat} (h : t.ncounters ≤ i) (v : Nat) :
    t.set i v = .error (.tableIndexOutOfRange i) := by
  simp [Table.set, h]

theorem set_value_error {t : Table} {i v : Nat} (h : i < t.ncounters) (hv : 3 < v) :
    t.set i v = .error (.tableInvalidValue v) := by
  simp [Table.set, Nat.not_le.mpr h, hv]

/-- A value error is fatal on a `Ready` block (60_exceptions.md R183, R186). -/
theorem raise_tableInvalidValue_phase {s : State} {p : Predictor} (hs : s.block = .ready p) (v : Nat) :
    (raise (.tableInvalidValue v) s).phase = .faulted := by
  simp [State.phase, hs]

/-! ### TBL_GET and TBL_SET on a `Ready` block -/

section ready
variable {s : State} {p : Predictor} {i v : Nat} (hs : s.block = .ready p)
include hs

theorem execTblGet_inside (hi : i < p.table.ncounters) :
    execTblGet i s =
      .next (s.withOut { Outputs.idle with tValueOut := some (BitVec.ofNat 2 (p.table.counter i)) }) := by
  rw [execTblGet, whenReady_ready hs, get_ok hi, orRaise, State.drive]

theorem execTblGet_outside (hi : p.table.ncounters ≤ i) :
    execTblGet i s = .next (raise (.tableIndexOutOfRange i) s) := by
  rw [execTblGet, whenReady_ready hs, get_error hi, orRaise]

theorem execTblSet_inside (hi : i < p.table.ncounters) (hv : v ≤ 3) :
    execTblSet i v s =
      .next { s with block := .ready { p with table := p.table.put i v }, out := Outputs.idle } := by
  rw [execTblSet, whenReady_ready hs, set_ok hi hv, orRaise]

theorem execTblSet_outside (hi : p.table.ncounters ≤ i) :
    execTblSet i v s = .next (raise (.tableIndexOutOfRange i) s) := by
  rw [execTblSet, whenReady_ready hs, set_index_error hi, orRaise]

theorem execTblSet_invalid_value (hi : i < p.table.ncounters) (hv : 3 < v) :
    execTblSet i v s = .next (raise (.tableInvalidValue v) s) := by
  rw [execTblSet, whenReady_ready hs, set_value_error hi hv, orRaise]

end ready

/-- Settles O33: in range the table is the one `put` leaves, whose units are the memory's read-after-write rules and whose
written unit is `withFieldAt`; the two errors end in `raise`. -/
theorem tblSetWritesOnlyItsField : Obligations.TblSetWritesOnlyItsField := by
  unfold Obligations.TblSetWritesOnlyItsField
  intro s p i v hs hwf
  refine ⟨fun hi hv => ?written, fun hi => ?index, fun hi hv => ?value⟩
  case written =>
    have hslot : i % 4 < 4 := Nat.mod_lt _ (by omega)
    have hunit : (p.table.put i v).units.read (i / 4) =
        withFieldAt (p.table.units.read (i / 4)) (2 * (i % 4)) v := read_put_same hwf i v
    refine ⟨p.table.put i v, execTblSet_inside hs hi hv, put_nunits _ _ _, fun _ => read_put_of_ne, ?_, ?_⟩
    · rw [hunit, withFieldAt_toNat _ hslot hv]
    · intro k hk
      rw [hunit, fieldAt_withFieldAt _ hslot hv hk]
  case index =>
    exact ⟨_, execTblSet_outside hs hi, raise_tableIndexOutOfRange_phase hs i, raise_errCode _ _, raise_pending _ _⟩
  case value =>
    exact ⟨_, execTblSet_invalid_value hs hi hv, raise_tableInvalidValue_phase hs v, raise_errCode _ _,
      raise_pending _ _⟩

/-- Settles O32: in range TBL_GET drives the counter, which two bits hold exactly; out of range it ends in `raise`. -/
theorem tblGetReadsItsField : Obligations.TblGetReadsItsField := by
  unfold Obligations.TblGetReadsItsField
  intro s p i hs
  refine ⟨fun hi => ?inside, fun hi => ?outside⟩
  case inside => exact ⟨_, execTblGet_inside hs hi, toNat_ofNat_counter p.table i⟩
  case outside =>
    exact ⟨_, execTblGet_outside hs hi, raise_tableIndexOutOfRange_phase hs i, raise_errCode _ _, raise_out _ _,
      raise_pending _ _⟩

end Sys2Proof.Machine
end

section
/-! SUPPORT. What an UPDATE leaves, each rule said once: the counter it selects, its table, its history and its two counts
(41_predictor_update.md R130 to R140). -/

namespace Sys2Proof.Machine

/-! ### The selected counter (R131 to R134) -/

section selected
variable {p : Predictor} {a b : Nat}

/-- The fold is skipped without history. -/
theorem selectedCounter_of_no_history (h : p.historyBits.toNat = 0) :
    p.selectedCounter a = p.truncatedAddress a := by
  rw [selectedCounter_eq, Predictor.hashedIndex, if_pos h]

theorem selectedCounter_of_history (h : 0 < p.historyBits.toNat) :
    p.selectedCounter a = p.truncatedAddress a ^^^ p.foldedHistory := by
  rw [selectedCounter_eq, Predictor.hashedIndex, if_neg h.ne']

/-- The address takes part only through its truncation (R131). -/
theorem selectedCounter_congr (h : p.truncatedAddress a = p.truncatedAddress b) :
    p.selectedCounter a = p.selectedCounter b := by
  rw [selectedCounter_eq, selectedCounter_eq, Predictor.hashedIndex, Predictor.hashedIndex, h]

theorem truncatedAddress_idem (p : Predictor) (a : Nat) :
    p.truncatedAddress (p.truncatedAddress a) = p.truncatedAddress a := by
  simp only [Predictor.truncatedAddress, Nat.and_assoc, Nat.and_self]

theorem truncatedAddress_eq_mod (h : p.indexMask.toNat = 2 ^ p.indexBits.toNat - 1) :
    p.truncatedAddress a = a % 2 ^ p.indexBits.toNat := by
  rw [Predictor.truncatedAddress, h, and_mask]

/-- UPDATE uses its address only to select a counter. -/
theorem execUpdate_congr {s : State} (hs : s.block = .ready p) (o : PredictionOutcome)
    (h : p.truncatedAddress a = p.truncatedAddress b) : execUpdate a o s = execUpdate b o s := by
  simp only [execUpdate, whenReady_ready hs, selectedCounter_congr h]

end selected

/-- Settles O18: UPDATE sees the truncated address only, and truncation is idempotent and, with the mask of a configuration,
the remainder modulo `2^indexBits`. -/
theorem updateSeesOnlyTheLowAddressBits : Obligations.UpdateSeesOnlyTheLowAddressBits := by
  unfold Obligations.UpdateSeesOnlyTheLowAddressBits
  intro s p a b o hs hmask
  refine ⟨execUpdate_congr hs o (truncatedAddress_idem p a).symm, fun hlow => execUpdate_congr hs o ?_⟩
  rw [truncatedAddress_eq_mod hmask, truncatedAddress_eq_mod hmask, hlow]

/-! ### The table (R137, R138) -/

section put
variable {t : Table} (ht : t.units.wf = true)
include ht

theorem get_put_same {i v : Nat} (hi : i < t.ncounters) (hv : v ≤ 3) : (t.put i v).get i = .ok v := by
  rw [get_ok (by simpa using hi), counter_put ht i i hv, if_pos rfl]

theorem get_put_of_ne {i j v : Nat} (hv : v ≤ 3) (hj : j ≠ i) : (t.put i v).get j = t.get j := by
  simp only [Table.get, put_ncounters, counter_put ht i j hv, if_neg hj]

/-- Writing back what a counter holds leaves the same table (40_table_ops.md R105 (c)). -/
theorem put_counter (i : Nat) : t.put i (t.counter i) = t := by
  refine table_eq_of_counters (put_wf ht _ _) ht rfl fun j => ?_
  rw [counter_put ht i j (counter_le t i)]
  split
  · next hj => rw [hj]
  · rfl

end put

/-- The two saturated cases. -/
theorem nextCounter_of_saturated {o : PredictionOutcome} {c : Nat}
    (h : c = 0 ∧ o = .notTaken ∨ c = 3 ∧ o = .taken) : nextCounter o c = c := by
  rcases h with ⟨rfl, rfl⟩ | ⟨rfl, rfl⟩ <;> rfl

section updatedTable
variable {p : Predictor} (hwf : p.table.units.wf = true) (a : Nat) (o : PredictionOutcome)

theorem updated_read_of_ne {u : Nat} (hu : u ≠ unitOf (p.selectedCounter a)) :
    (p.updated a o).table.units.read u = p.table.units.read u :=
  read_put_of_ne hu

include hwf

theorem updated_get_selected (hi : p.selectedCounter a < p.table.ncounters) :
    (p.updated a o).table.get (p.selectedCounter a) =
      .ok (nextCounter o (p.table.counter (p.selectedCounter a))) :=
  get_put_same hwf hi (nextCounter_le o (counter_le _ _))

theorem updated_get_of_ne {j : Nat} (hj : j ≠ p.selectedCounter a) :
    (p.updated a o).table.get j = p.table.get j :=
  get_put_of_ne hwf (nextCounter_le o (counter_le _ _)) hj

theorem updated_table_of_saturated
    (h : p.table.counter (p.selectedCounter a) = 0 ∧ o = .notTaken ∨
      p.table.counter (p.selectedCounter a) = 3 ∧ o = .taken) :
    (p.updated a o).table = p.table := by
  rw [updated_table, nextCounter_of_saturated h, put_counter hwf]

end updatedTable

/-- Settles O15: the index of the statement is `selectedCounter` and its field is that counter, so every clause is a rule of the
table that an UPDATE leaves. -/
theorem updateMovesExactlyTheSelectedCounter : Obligations.UpdateMovesExactlyTheSelectedCounter := by
  unfold Obligations.UpdateMovesExactlyTheSelectedCounter
  intro s p a o hs m a1 a2 row col cnt
  have hsel : 4 * row + col = p.selectedCounter a := rfl
  have hrow : unitOf (p.selectedCounter a) = row := by rw [selectedCounter_eq]; rfl
  have hcnt : cnt = p.table.counter (p.selectedCounter a) := by rw [selectedCounter_eq]; rfl
  have hwf := hs.inv.canonical
  have hi := hs.inv.selected_lt a
  refine ⟨p.updated a o, execUpdate_enabled hs a o, ?read, ?written, ?others, ?units, ?saturated, rfl, rfl, rfl, rfl⟩
  case read => rw [hsel, hcnt, get_ok hi]
  case written =>
    rw [hsel, hcnt, updated_get_selected hwf a o hi]
    cases o <;> rfl
  case others => exact fun j hj => updated_get_of_ne hwf a o hj
  case units => exact fun u hu => updated_read_of_ne a o (hrow ▸ hu)
  case saturated => exact fun h => updated_table_of_saturated hwf a o (hcnt ▸ h)

/-- The table of an UPDATE without history does not depend on the history register. -/
theorem updated_table_of_no_history {p : Predictor} (h : p.historyBits.toNat = 0) (g : BitVec 32) (a : Nat)
    (o : PredictionOutcome) : (({ p with h := g } : Predictor).updated a o).table = (p.updated a o).table := by
  have hsel : ({ p with h := g } : Predictor).selectedCounter a = p.selectedCounter a :=
    (selectedCounter_of_no_history (p := { p with h := g }) h).trans (selectedCounter_of_no_history h).symm
  rw [updated_table, updated_table, hsel]

/-- Settles O44: an UPDATE that leaves the block `Ready` is `updated`, the index of the statement is `selectedCounter`, with or
without history, and the saturating step is checked on the four counter values. -/
theorem updateFoldsTheOldHistoryAndStepsOneCounter : Obligations.UpdateFoldsTheOldHistoryAndStepsOneCounter := by
  unfold Obligations.UpdateFoldsTheOldHistoryAndStepsOneCounter
  intro s t p q a o hs hwf he ht a1 t1 t2 t3 a2
  obtain ⟨hi, -, rfl⟩ := execUpdate_ready hs he ht
  have hsel : a2 = p.selectedCounter a := by
    rcases Nat.eq_zero_or_pos p.historyBits.toNat with hb | hb
    · rw [selectedCounter_of_no_history hb]
      exact if_neg (by omega)
    · rw [selectedCounter_of_history hb]
      exact if_pos hb
  rw [hsel]
  refine ⟨fun j hj => updated_get_of_ne hwf a o hj, ⟨_, get_ok hi, counter_le _ _, ?stepped⟩, ?inert⟩
  case stepped =>
    rw [updated_get_selected hwf a o hi]
    have hle := counter_le p.table (p.selectedCounter a)
    generalize p.table.counter (p.selectedCounter a) = cnt at hle
    cases o <;> interval_cases cnt <;> rfl
  case inert =>
    intro hb g t' q' he' ht'
    obtain ⟨-, -, rfl⟩ := execUpdate_ready rfl he' ht'
    exact updated_table_of_no_history (by simp [hb]) g a o

/-! ### The statistics (R136, R140) -/

/-- The comparator as R135 and R136 put it together. -/
theorem isMiss_iff (o : PredictionOutcome) (cnt : Nat) : isMiss o cnt = true ↔ impliedPrediction cnt ≠ o := by
  rcases Nat.lt_or_ge cnt 2 with h | h
  · have hpred : impliedPrediction cnt = .notTaken := if_neg (by omega)
    cases o <;> simp [isMiss, hpred] <;> omega
  · have hpred : impliedPrediction cnt = .taken := if_pos h
    cases o <;> simp [isMiss, hpred] <;> omega

/-- `missCount` after an UPDATE, where it is below its top. -/
theorem updated_missCount_toNat {p : Predictor} (h : p.missCount.toNat < statMax) (a : Nat) (o : PredictionOutcome) :
    (p.updated a o).missCount.toNat =
      p.missCount.toNat + if isMiss o (p.table.counter (p.selectedCounter a)) then 1 else 0 := by
  rw [updated_missCount]
  split
  · exact toNat_add_one h
  · rfl

section miss
variable {p : Predictor} (h : p.missCount.toNat < statMax) (a : Nat) (o : PredictionOutcome)
include h

theorem updated_missCount_succ_iff :
    (p.updated a o).missCount.toNat = p.missCount.toNat + 1 ↔
      isMiss o (p.table.counter (p.selectedCounter a)) = true := by
  rw [updated_missCount_toNat h]
  split <;> simp [*]

theorem updated_missCount_same_iff :
    (p.updated a o).missCount = p.missCount ↔ ¬ isMiss o (p.table.counter (p.selectedCounter a)) = true := by
  rw [BitVec.toNat_eq, updated_missCount_toNat h]
  split <;> simp [*]

end miss

/-- Settles O16: the two counts of the predictor an UPDATE leaves, and the comparator on each outcome; that `missCount` stays at
most `totalCount` is part of the invariant an UPDATE keeps. -/
theorem updateCountsEveryEventAndEveryMiss : Obligations.UpdateCountsEveryEventAndEveryMiss := by
  unfold Obligations.UpdateCountsEveryEventAndEveryMiss
  intro s p a o hs cnt
  have hroom : p.missCount.toNat < statMax := lt_of_le_of_lt hs.inv.statistics hs.notFull
  have hmiss : (p.updated a o).missCount.toNat = p.missCount.toNat + if isMiss o cnt then 1 else 0 :=
    updated_missCount_toNat hroom a o
  refine ⟨p.updated a o, execUpdate_enabled hs a o, toNat_add_one hs.notFull, ?notTaken, ?taken, ?predicted,
    (updated_inv hs.inv hs.notFull a o).statistics⟩
  case notTaken =>
    rintro rfl
    simpa [isMiss] using hmiss
  case taken =>
    rintro rfl
    simpa [isMiss] using hmiss
  case predicted => rw [updated_missCount_same_iff hroom, isMiss_iff, not_not]

/-- Settles O45: the premises keep `missCount` from its top, so it grows exactly when the comparator says so; on each outcome the
comparator is a bound on a value of at most 3. -/
theorem updateMissesWhenTheOldCounterPredictsOtherwise :
    Obligations.UpdateMissesWhenTheOldCounterPredictsOtherwise := by
  unfold Obligations.UpdateMissesWhenTheOldCounterPredictsOtherwise
  intro s t p q a o cnt hs hstat hget he ht
  obtain ⟨hi, hnotFull, rfl⟩ := execUpdate_ready hs he ht
  obtain rfl : p.table.counter (p.selectedCounter a) = cnt := by
    rw [get_ok hi] at hget
    exact Except.ok.inj hget
  have hroom : p.missCount.toNat < statMax := by
    have := p.totalCount.isLt
    unfold statMax at hnotFull ⊢
    omega
  have hle := counter_le p.table (p.selectedCounter a)
  rw [updated_missCount_succ_iff hroom, updated_missCount_same_iff hroom]
  refine ⟨em _, isMiss_iff o _, ?notTaken, ?taken⟩
  case notTaken =>
    rintro rfl
    simp only [isMiss, decide_eq_true_eq]
    omega
  case taken =>
    rintro rfl
    simp only [isMiss, decide_eq_true_eq]
    omega

/-! ### The history (R139) -/

theorem outcomeBit_eq (o : PredictionOutcome) : outcomeBit o = if o = .taken then 1 else 0 := by cases o <;> rfl

section shift
variable {hb h : Nat} (o : PredictionOutcome) (hpos : 0 < hb)
include hpos

theorem shiftHistory_eq_or :
    shiftHistory hb o h = (h >>> 1) ||| (if o = .taken then 1 <<< (hb - 1) else 0) := by
  rw [shiftHistory, if_neg hpos.ne', outcomeBit_eq]
  cases o <;> simp

/-- A remembered outcome moves one place toward bit 0. -/
theorem testBit_shiftHistory_of_lt {k : Nat} (hk : k + 1 < hb) :
    (shiftHistory hb o h).testBit k = h.testBit (k + 1) := by
  have hbelow : ¬ hb - 1 ≤ k := by omega
  rw [shiftHistory, if_neg hpos.ne', Nat.testBit_or, Nat.testBit_shiftRight, Nat.testBit_shiftLeft, Nat.add_comm 1 k]
  simp [hbelow]

variable (hh : h < 2 ^ hb)
include hh

/-- The aged history lies below the place of the new outcome. -/
theorem half_history_lt : h / 2 < 2 ^ (hb - 1) := by
  obtain ⟨k, rfl⟩ : ∃ k, hb = k + 1 := ⟨hb - 1, by omega⟩
  rw [Nat.pow_succ] at hh
  rw [Nat.add_sub_cancel]
  omega

/-- The two operands of the OR have no bit in common, so it adds them. -/
theorem shiftHistory_eq_add :
    shiftHistory hb o h = h / 2 + (if o = .taken then 2 ^ (hb - 1) else 0) := by
  rw [shiftHistory, if_neg hpos.ne', Nat.shiftRight_one, Nat.lor_comm,
    ← Nat.shiftLeft_add_eq_or_of_lt (half_history_lt hpos hh), Nat.add_comm, outcomeBit_eq, Nat.shiftLeft_eq,
    ite_mul, one_mul, zero_mul]

theorem testBit_shiftHistory_top : (shiftHistory hb o h).testBit (hb - 1) = decide (o = .taken) := by
  have hold : (h >>> 1).testBit (hb - 1) = false := by
    rw [Nat.shiftRight_one]
    exact Nat.testBit_lt_two_pow (half_history_lt hpos hh)
  rw [shiftHistory, if_neg hpos.ne', Nat.testBit_or, hold, Nat.testBit_shiftLeft, outcomeBit_eq]
  cases o <;> simp

end shift

/-- Settles O17: the history register holds `shiftHistory` exactly, and each clause is a rule about that number. -/
theorem updateShiftsTheOutcomeIntoTheTop : Obligations.UpdateShiftsTheOutcomeIntoTheTop := by
  unfold Obligations.UpdateShiftsTheOutcomeIntoTheTop
  intro s p a o hs hb
  have hlt : p.h.toNat < 2 ^ hb := hs.inv.history
  have hnew : (p.updated a o).h.toNat = shiftHistory hb o p.h.toNat := updated_h_toNat hs.inv a o
  refine ⟨p.updated a o, execUpdate_enabled hs a o, fun hpos => ⟨?or, ?add, ?top, fun k hk => ?aged⟩, fun hone => ?one,
    fun hzero => ?none, (updated_inv hs.inv hs.notFull a o).history⟩
  case or => rw [hnew, shiftHistory_eq_or o hpos]
  case add => rw [hnew, shiftHistory_eq_add o hpos hlt]
  case top => rw [← BitVec.testBit_toNat, hnew, testBit_shiftHistory_top o hpos hlt]
  case aged => rw [← BitVec.testBit_toNat, ← BitVec.testBit_toNat, hnew, testBit_shiftHistory_of_lt o hpos hk]
  case one =>
    rw [hone] at hnew hlt
    have hold : p.h.toNat / 2 = 0 := Nat.div_eq_of_lt hlt
    rw [hnew, shiftHistory_eq_add o one_pos hlt, hold, zero_add]
    rfl
  case none =>
    rw [hzero] at hnew hlt
    have hsame : (p.updated a o).h = p.h := BitVec.eq_of_toNat_eq (hnew.trans (if_pos rfl))
    have hclear : p.h = 0 := BitVec.eq_of_toNat_eq (by simpa using hlt)
    exact ⟨hsame, hsame.trans hclear⟩

end Sys2Proof.Machine
end

section
/-! SUPPORT. What a step can answer, said once, and the statements about every step that follow from it: the invariant, the way
into `Ready`, where errors come from, and what changes the predictor. -/

namespace Sys2Proof.Machine

/-- The next states a step from `s` can answer, with the operation that leads to each. The internal table operations have
no case, since the environment cannot issue them (20_memory.md R64). -/
inductive StepAnswer (s : State) : State → Prop
  | constructed {ib hb : Nat} (op : decode s.presented = .construct ib hb) (valid : validConfig ib hb = true) :
      StepAnswer s { s.consume with
        block := .ready (freshPredictor ib hb (2 ^ (ib - 2))), errCode := 0, out := Outputs.idle }
  | configError {ib hb : Nat} (op : decode s.presented = .construct ib hb) (invalid : validConfig ib hb = false) :
      StepAnswer s { s.consume with block := .unconstructed, errCode := 1, out := Outputs.idle }
  | updated {a : Nat} {o : PredictionOutcome} {p : Predictor} (op : decode s.presented = .update a o)
      (ready : s.block = .ready p) (room : p.totalCount.toNat < statMax) :
      StepAnswer s { s.consume with block := .ready (p.updated a o), out := Outputs.idle }
  | updateRaises {a : Nat} {o : PredictionOutcome} {p : Predictor} (op : decode s.presented = .update a o)
      (ready : s.block = .ready p) (outside : p.table.ncounters ≤ p.selectedCounter a) :
      StepAnswer s (raise (.tableIndexOutOfRange (p.selectedCounter a)) s.consume)
  | peekRaises {k : Nat} {p : Predictor} (op : decode s.presented = .peek k) (ready : s.block = .ready p)
      (outside : p.table.ncounters ≤ k) :
      StepAnswer s (raise (.tableIndexOutOfRange k) s.consume)
  | readOnly (o : Outputs) (noConstruct : ∀ ib hb, decode s.presented ≠ .construct ib hb) :
      StepAnswer s (s.consume.withOut o)

/-- A statistics register that is not at its top is below it. -/
theorem lt_statMax {c : BitVec Config.statW} (h : c.toNat ≠ statMax) : c.toNat < statMax := by
  have := c.isLt
  unfold statMax at h ⊢
  omega

/-- Every next state of a step is one of the answers above. -/
theorem stepAnswer_of_step {s t : State} (h : step s = .next t) : StepAnswer s t := by
  rw [step_eq] at h
  rcases exec_cases h with ⟨ib, hb, op, ⟨hv, rfl⟩ | ⟨hv, rfl⟩⟩ | ⟨a, o, p, op, hp, hn, ⟨-, rfl⟩ | ⟨hi, rfl⟩⟩ |
    ⟨k, p, op | op, hp, hk, rfl⟩ | ⟨op, o, rfl⟩ | ⟨k, v, p, op, -, -⟩
  · exact .constructed op hv
  · exact .configError op hv
  · exact .updated op hp (lt_statMax hn)
  · exact .updateRaises op hp hi
  · exact .peekRaises op hp hk
  · exact absurd op (decode_ne_tblGet _ _)
  · refine .readOnly o fun ib hb hc => ?_
    rw [hc] at op
    simp at op
  · exact absurd op (decode_ne_tblSet _ _ _)

/-- The invariant speaks of the block and `errCode` only. -/
theorem State.Inv_congr {s t : State} (hb : t.block = s.block) (he : t.errCode = s.errCode) : t.Inv ↔ s.Inv := by
  simp only [State.Inv, hb, he]

theorem State.Inv.of_ready {s : State} {p : Predictor} (hs : s.Inv) (h : s.block = .ready p) :
    s.errCode = 0 ∧ p.Inv := (State.Inv_ready h).mp hs

/-- An index error on a `Ready` block leaves a `Faulted` one with code 2, which is what the invariant asks. -/
theorem raise_tableIndexOutOfRange_inv {s : State} {p : Predictor} (h : s.block = .ready p) (i : Nat) :
    (raise (.tableIndexOutOfRange i) s).Inv := by
  simp [State.Inv, h]

/-- Settles O36: each answer of a step meets the invariant: a fresh predictor and an updated one by `freshPredictor_inv` and
`updated_inv`, a fault because `errCode` is 2, a read-only operation because block and `errCode` are untouched; an UPDATE
cannot raise. -/
theorem stepKeepsTheInvariant : Obligations.StepKeepsTheInvariant := by
  unfold Obligations.StepKeepsTheInvariant
  intro s t hs h
  cases stepAnswer_of_step h with
  | constructed op valid => exact ⟨rfl, freshPredictor_inv valid⟩
  | configError op invalid => exact .inr rfl
  | updated op ready room =>
    obtain ⟨herr, hp⟩ := hs.of_ready ready
    exact ⟨herr, updated_inv hp room _ _⟩
  | updateRaises op ready outside =>
    exact absurd ((hs.of_ready ready).2.selected_lt _) (Nat.not_lt.mpr outside)
  | peekRaises op ready outside => exact raise_tableIndexOutOfRange_inv (s := s.consume) ready _
  | readOnly o noConstruct => exact (State.Inv_congr rfl rfl).mpr hs

/-- Settles O35: power-on is unconstructed without error, and lists no unit. -/
theorem powerOnMeetsTheInvariant : Obligations.PowerOnMeetsTheInvariant := by
  unfold Obligations.PowerOnMeetsTheInvariant
  exact ⟨.inl rfl, Memory.wf_nil⟩

/-- Settles O9: of the answers that leave a `Ready` block, all but `constructed` start from one. -/
theorem onlyConstructMakesTheBlockReady : Obligations.OnlyConstructMakesTheBlockReady := by
  unfold Obligations.OnlyConstructMakesTheBlockReady
  intro s t h hs ht
  have notReady : ∀ {p}, s.block ≠ .ready p := fun hp => hs (by rw [State.phase, hp, Block.phase_ready])
  cases stepAnswer_of_step h with
  | constructed op valid => exact ⟨rfl, _, _, op, valid⟩
  | configError op invalid => cases ht
  | updated op ready room => exact absurd ready notReady
  | updateRaises op ready outside => exact absurd ready notReady
  | peekRaises op ready outside => exact absurd ready notReady
  | readOnly o noConstruct => exact absurd ht hs

/-- The invariant leaves no room for codes 3 and 4 (60_exceptions.md R197). -/
theorem State.Inv.errCode_ne {s : State} (hs : s.Inv) : s.errCode ≠ 3 ∧ s.errCode ≠ 4 := by
  unfold State.Inv at hs
  split at hs
  · rcases hs with he | he <;> simp [he]
  · simp [hs.1]
  · simp [hs]

/-- Settles O38: the invariant, which `t` meets too, excludes codes 3 and 4; codes 1 and 2 are new only in the answers
`configError` and `peekRaises`. -/
theorem errorsComeOnlyFromPeekAndConstruct : Obligations.ErrorsComeOnlyFromPeekAndConstruct := by
  unfold Obligations.ErrorsComeOnlyFromPeekAndConstruct
  intro s t hs h
  have ht : t.Inv := stepKeepsTheInvariant s t hs h
  refine ⟨ht.errCode_ne.1, ht.errCode_ne.2, fun htwo hne => ?index, fun hone hne => ?config⟩
  case index =>
    cases stepAnswer_of_step h with
    | constructed op valid => cases htwo
    | configError op invalid => cases htwo
    | updated op ready room => exact absurd htwo hne
    | updateRaises op ready outside =>
      exact absurd ((hs.of_ready ready).2.selected_lt _) (Nat.not_lt.mpr outside)
    | peekRaises op ready outside => exact ⟨_, _, ready, op, outside⟩
    | readOnly o noConstruct => exact absurd htwo hne
  case config =>
    cases stepAnswer_of_step h with
    | constructed op valid => cases hone
    | configError op invalid => exact ⟨_, _, op, invalid⟩
    | updated op ready room => exact absurd hone hne
    | updateRaises op ready outside => cases hone
    | peekRaises op ready outside => cases hone
    | readOnly o noConstruct => exact absurd hone hne

/-- Settles O39: without UPDATE and CONSTRUCT the answers left are `peekRaises` and `readOnly`. -/
theorem onlyUpdateAndConstructChangeThePredictor : Obligations.OnlyUpdateAndConstructChangeThePredictor := by
  unfold Obligations.OnlyUpdateAndConstructChangeThePredictor
  intro s t h noUpdate noConstruct
  cases stepAnswer_of_step h with
  | constructed op valid => exact absurd op (noConstruct _ _)
  | configError op invalid => exact absurd op (noConstruct _ _)
  | updated op ready room => exact absurd op (noUpdate _ _)
  | updateRaises op ready outside => exact absurd op (noUpdate _ _)
  | peekRaises op ready outside =>
    exact .inr ⟨_, _, ready, op, outside, raise_tableIndexOutOfRange_phase (s := s.consume) ready _⟩
  | readOnly o noConstruct => exact .inl ⟨rfl, rfl⟩

/-- Settles O40: from `Ready` to `Ready` without CONSTRUCT the answers left are `updated`, whose counts are those of O16, and
`readOnly`. -/
theorem configurationIsFixedAndStatisticsGrow : Obligations.ConfigurationIsFixedAndStatisticsGrow := by
  unfold Obligations.ConfigurationIsFixedAndStatisticsGrow
  intro s t p q hs hp h hq noConstruct
  have faulted : ∀ i, (raise (.tableIndexOutOfRange i) s.consume).block ≠ .ready q := fun i => by simp [hp]
  cases stepAnswer_of_step h with
  | constructed op valid => exact absurd op (noConstruct _ _)
  | configError op invalid => cases hq
  | @updated a o p' op ready room =>
    obtain rfl : p = p' := Block.ready.inj (hp.symm.trans ready)
    obtain rfl : p.updated a o = q := Block.ready.inj hq
    have hmiss : p.missCount.toNat < statMax := lt_of_le_of_lt (hs.of_ready hp).2.statistics room
    refine ⟨rfl, rfl, rfl, rfl, ?_, ?_⟩
    · rw [updated_missCount_toNat hmiss]
      exact Nat.le_add_right _ _
    · rw [updated_totalCount, toNat_add_one room]
      exact Nat.le_succ _
  | updateRaises op ready outside => exact absurd hq (faulted _)
  | peekRaises op ready outside => exact absurd hq (faulted _)
  | readOnly o noConstruct =>
    obtain rfl : p = q := Block.ready.inj (hp.symm.trans hq)
    exact ⟨rfl, rfl, rfl, rfl, le_rfl, le_rfl⟩

end Sys2Proof.Machine
end

section
/-! SUPPORT. Decoder and encoder (30_encoding.md section 3): each undoes the other on the ports an operation uses, and a step runs
what stands on them. -/

namespace Sys2Proof

theorem fits_iff {w n : Nat} : fits w n = true ↔ n < 2 ^ w := decide_eq_true_iff

/-- What a port carries fits it. -/
@[simp] theorem fits_toNat {w : Nat} (b : BitVec w) : fits w b.toNat = true := fits_iff.mpr b.isLt

/-- A value that fits its port is read back from it. -/
theorem toNat_ofNat_of_fits {w n : Nat} (h : fits w n = true) : (BitVec.ofNat w n).toNat = n := by
  rw [BitVec.toNat_ofNat, Nat.mod_eq_of_lt (fits_iff.mp h)]

theorem outcomeOfBit_bit (o : PredictionOutcome) : outcomeOfBit o.bit = o := by cases o <;> rfl

theorem bit_outcomeOfBit (b : BitVec 1) : (outcomeOfBit b).bit = b := by
  revert b
  decide

/-- Decoding undoes encoding, on both ports. -/
theorem decodePort_encode {i : Instr} (h : i.wf = true) : decodePort (encode i) = i := by
  cases i with
  | construct ib hb =>
    obtain ⟨hib, hhb⟩ := Bool.and_eq_true_iff.mp h
    exact congrArg₂ Instr.construct (toNat_ofNat_of_fits hib) (toNat_ofNat_of_fits hhb)
  | update a o => exact congrArg₂ Instr.update (toNat_ofNat_of_fits h) (outcomeOfBit_bit o)
  | peek k => exact congrArg Instr.peek (toNat_ofNat_of_fits h)
  | tblGet k => exact congrArg Instr.tblGet (toNat_ofNat_of_fits h)
  | tblSet k v =>
    obtain ⟨hk, hv⟩ := Bool.and_eq_true_iff.mp h
    exact congrArg₂ Instr.tblSet (toNat_ofNat_of_fits hk) (toNat_ofNat_of_fits hv)
  | nop => rfl
  | stats => rfl
  | ratio => rfl
  | reserved6 => rfl
  | reserved7 => rfl

/-- An operation the environment can issue stands on the block's ports. -/
theorem encode_of_issuable {i : Instr} (h : i.issuable = true) : encode i = .block (portsOf i) := by
  cases i with
  | tblGet k => cases h
  | tblSet k v => cases h
  | _ => rfl

theorem decode_of_encode {i : Instr} {p : Ports} (hwf : i.wf = true) (h : encode i = .block p) : decode p = i := by
  have hdec := decodePort_encode hwf
  rwa [h] at hdec

theorem decode_portsOf {i : Instr} (hwf : i.wf = true) (h : i.issuable = true) : decode (portsOf i) = i :=
  decode_of_encode hwf (encode_of_issuable h)

section decode
variable {p : Ports}

theorem decode_of_op_construct (h : p.op = 1) :
    decode p = .construct p.cfgIndexBits.toNat p.cfgHistoryBits.toNat := by simp [decode, h]

theorem decode_of_op_update (h : p.op = 2) : decode p = .update p.addr.toNat (outcomeOfBit p.outcome) := by
  simp [decode, h]

theorem decode_of_op_peek (h : p.op = 5) : decode p = .peek p.peekIndex.toNat := by simp [decode, h]

end decode

/-- Every operand read from a port fits it. -/
theorem decode_wf (p : Ports) : (decode p).wf = true := by
  unfold decode
  split <;> simp [Instr.wf]

theorem decode_issuable (p : Ports) : (decode p).issuable = true := by
  unfold decode
  split <;> rfl

/-- The eight codes of port `op` (30_encoding.md R80). -/
theorem op_cases : ∀ c : BitVec 3, c = 0 ∨ c = 1 ∨ c = 2 ∨ c = 3 ∨ c = 4 ∨ c = 5 ∨ c = 6 ∨ c = 7 := by decide

/-- No two codes select one operation. -/
theorem portsOf_decode_op (p : Ports) : (portsOf (decode p)).op = p.op := by
  obtain ⟨c, ib, hb, a, o, k⟩ := p
  rcases op_cases c with rfl | rfl | rfl | rfl | rfl | rfl | rfl | rfl <;> rfl

end Sys2Proof

namespace Sys2Proof.Machine

/-- Settles O2: `decodePort_encode`, the case split over the operations. -/
theorem decodeOfEncodeIsTheOperation : Obligations.DecodeOfEncodeIsTheOperation := by
  unfold Obligations.DecodeOfEncodeIsTheOperation
  exact fun i => decodePort_encode

/-- Settles O3: what is decoded is well formed and issuable, so O2 applies to it; the used ports carry the operand they
were read from. -/
theorem encodeOfDecodeKeepsTheUsedPorts : Obligations.EncodeOfDecodeKeepsTheUsedPorts := by
  unfold Obligations.EncodeOfDecodeKeepsTheUsedPorts
  intro p
  have hwf := decode_wf p
  have hissue := decode_issuable p
  refine ⟨hwf, hissue, portsOf (decode p), encode_of_issuable hissue, decode_portsOf hwf hissue,
    portsOf_decode_op p, fun hop => ?construct, fun hop => ?update, fun hop => ?peek⟩
  case construct =>
    rw [decode_of_op_construct hop]
    simp [portsOf, encode]
  case update =>
    rw [decode_of_op_update hop]
    simp [portsOf, encode, bit_outcomeOfBit]
  case peek =>
    rw [decode_of_op_peek hop]
    simp [portsOf, encode]

/-- Settles O1: each set of port values is decoded. -/
theorem specWordsDecodeToTheirOperations : Obligations.SpecWordsDecodeToTheirOperations := by
  unfold Obligations.SpecWordsDecodeToTheirOperations
  decide

/-- A step with nothing presented is a NOP (42_statistics.md R164). -/
theorem step_nil {s : State} (h : s.pending = []) : step s = exec .nop s := by
  obtain ⟨b, e, o, ps⟩ := s
  subst h
  rfl

/-- Settles O4: `step_cons` on what the head decodes to, which for an encoded operation is that operation, and `step_nil`. -/
theorem stepRunsThePresentedOperation : Obligations.StepRunsThePresentedOperation := by
  unfold Obligations.StepRunsThePresentedOperation
  refine ⟨fun s i p rest hwf henc hpend => ?encoded, fun s p rest hpend => ?any, fun s hpend => step_nil hpend⟩
  case encoded => rw [step_cons hpend, decode_of_encode hwf henc, State.withPending]
  case any => rw [step_cons hpend, State.withPending]

end Sys2Proof.Machine
end

section
/-! SUPPORT. The phases and CONSTRUCT: what is refused, what is built, and what a construction forgets
(60_exceptions.md, 41_predictor_update.md section 1). -/

namespace Sys2Proof.Machine

/-! ### Refusals and the ports `phase` and `err` -/

/-- Outside `Ready` only CONSTRUCT and NOP are not refused (60_exceptions.md R192). -/
theorem exec_refused_outside_ready {s : State} {i : Instr} (h : s.phase ≠ .ready) (hn : i ≠ .nop)
    (hc : ∀ ib hb, i ≠ .construct ib hb) : ∃ r, exec i s = .refused r := by
  rcases exec_outside_ready h hn hc with hr | ⟨-, hr⟩ | ⟨-, hr⟩ <;> exact ⟨_, hr⟩

/-- Settles O6: the three refusals of `exec_outside_ready`. -/
theorem outsideReadyOnlyConstructAndNopRun : Obligations.OutsideReadyOnlyConstructAndNopRun := by
  unfold Obligations.OutsideReadyOnlyConstructAndNopRun
  exact fun s i => exec_refused_outside_ready

/-- Settles O5: power-on is a literal state, and the phase check computes to its refusal on it. -/
theorem powerOnHoldsNoPredictor : Obligations.PowerOnHoldsNoPredictor := by
  unfold Obligations.PowerOnHoldsNoPredictor
  exact ⟨rfl, rfl, rfl, rfl, rfl, fun _ _ => rfl, rfl, rfl, fun _ => rfl⟩

/-- Settles O7: both arms answer the refusal. -/
theorem reservedCodesAreRefused : Obligations.ReservedCodesAreRefused := by
  unfold Obligations.ReservedCodesAreRefused
  exact fun _ => ⟨rfl, rfl⟩

/-- Settles O8: NOP drives the idle ports and nothing else. -/
theorem nopCompletesWithoutEffect : Obligations.NopCompletesWithoutEffect := by
  unfold Obligations.NopCompletesWithoutEffect
  exact fun _ => rfl

/-- Settles O10: the port is read off each of the three blocks. -/
theorem phaseAndErrPortsFollowTheState : Obligations.PhaseAndErrPortsFollowTheState := by
  unfold Obligations.PhaseAndErrPortsFollowTheState
  intro s
  refine ⟨rfl, ?_⟩
  cases h : s.block <;> simp [State.phasePort, State.phase, h]

/-! ### CONSTRUCT -/

/-- Settles O11: a valid CONSTRUCT builds `freshPredictor`, whose fields, table and invariant are known. -/
theorem constructCompletesWithTheResetValues : Obligations.ConstructCompletesWithTheResetValues := by
  unfold Obligations.ConstructCompletesWithTheResetValues
  intro s ib hb hv
  have hinv := freshPredictor_inv hv
  have hsize : (freshPredictor ib hb (2 ^ (ib - 2))).table.ncounters = 2 ^ ib := by
    rw [hinv.ncounters, toNat_indexBits hv]
  refine ⟨_, execConstruct_valid hv s, toNat_indexBits hv, toNat_historyBits hv, toNat_indexMask hv, rfl, rfl, rfl, rfl,
    hsize, fun _ _ => rfl, fun i hi => ?counters, hinv⟩
  case counters =>
    rw [get_ok (by rwa [hsize]), freshPredictor_table, init_counter, Config.cntInit]

theorem validConfig_eq_false_iff {ib hb : Nat} :
    validConfig ib hb = false ↔ ib < 16 ∨ 32 < ib ∨ 32 < hb ∨ ib < hb := by
  rw [← Bool.not_eq_true, validConfig_iff]
  omega

/-- Settles O12: an invalid CONSTRUCT leaves the unconstructed block, which refuses. -/
theorem constructRefusesToBuildAnInvalidConfiguration :
    Obligations.ConstructRefusesToBuildAnInvalidConfiguration := by
  unfold Obligations.ConstructRefusesToBuildAnInvalidConfiguration
  intro s ib hb hinvalid
  refine ⟨_, execConstruct_invalid (validConfig_eq_false_iff.mpr hinvalid) s, rfl, rfl, fun i => ?_⟩
  exact exec_refused_outside_ready nofun

/-- The codes a CONSTRUCT can leave. -/
theorem execConstruct_errCode {ib hb : Nat} {s t : State} (h : execConstruct ib hb s = .next t) :
    t.errCode = 0 ∨ t.errCode = 1 := by
  rcases execConstruct_cases ib hb s with ⟨-, he⟩ | ⟨-, he⟩ <;> cases he.symm.trans h
  · exact .inl rfl
  · exact .inr rfl

/-- Settles O13: `validConfig` bounds the exponent by 30, and a CONSTRUCT leaves code 0 or 1. -/
theorem sizeGuardIsDeadAfterValidation : Obligations.SizeGuardIsDeadAfterValidation := by
  unfold Obligations.SizeGuardIsDeadAfterValidation
  refine ⟨fun ib hb hv => ?dead, fun e he => if_pos he, fun s t ib hb h => ?codes⟩
  case dead =>
    have hc := validConfig_iff.mp hv
    exact if_neg (by unfold Config.pow2MaxExp; omega)
  case codes =>
    rcases execConstruct_errCode h with he | he <;> rw [he] <;> decide

/-- CONSTRUCT keeps nothing of the state but the schedule (41_predictor_update.md R124). -/
theorem execConstruct_congr {s s' : State} (h : s.pending = s'.pending) (ib hb : Nat) :
    execConstruct ib hb s = execConstruct ib hb s' := by
  cases hv : validConfig ib hb with
  | true => rw [execConstruct_valid hv, execConstruct_valid hv, h]
  | false => rw [execConstruct_invalid hv, execConstruct_invalid hv, h]

/-- Settles O14: the two first steps are the same CONSTRUCT, which keeps only the schedule, so the runs are the same. -/
theorem runAfterConstructForgetsThePast : Obligations.RunAfterConstructForgetsThePast := by
  unfold Obligations.RunAfterConstructForgetsThePast
  intro s s' p rest n hop hs hs'
  refine runSteps_congr ?_
  rw [step_cons hs, step_cons hs', decode_of_op_construct hop]
  exact execConstruct_congr rfl _ _

end Sys2Proof.Machine
end

section
/-! SUPPORT. The read-only operations (42_statistics.md), and the canonical form of the storage units under every operation. -/

namespace Sys2Proof.Machine

/-! ### STATS, PEEK and RATIO on a `Ready` block -/

/-- A PEEK inside the table drives its counter (42_statistics.md R163). -/
theorem execPeek_inside {s : State} {p : Predictor} {i : Nat} (hs : s.block = .ready p) (hi : i < p.table.ncounters) :
    execPeek i s =
      .next (s.withOut { Outputs.idle with peekValue := some (BitVec.ofNat 2 (p.table.counter i)) }) := by
  rw [execPeek, whenReady_ready hs, get_ok hi, orRaise, State.drive]

/-- Settles O26: past the phase check STATS drives its two ports. -/
theorem statsDrivesTheTwoCounters : Obligations.StatsDrivesTheTwoCounters := by
  unfold Obligations.StatsDrivesTheTwoCounters
  exact fun s p hs => whenReady_ready hs _

/-- Settles O29: the driven value is the counter, which two bits hold exactly. -/
theorem peekDrivesTheCounter : Obligations.PeekDrivesTheCounter := by
  unfold Obligations.PeekDrivesTheCounter
  exact fun s p i hs hi => ⟨_, execPeek_inside hs hi, toNat_ofNat_counter p.table i⟩

theorem execRatio_ready {s : State} {p : Predictor} (hs : s.block = .ready p) :
    execRatio s =
      .next (s.withOut { Outputs.idle with ratio := some (ratioOutOf p.missCount.toNat p.totalCount.toNat) }) :=
  whenReady_ready hs _

theorem ratioOf_no_events (miss : Nat) : ratioOf miss 0 = 0 := rfl

/-- The ratio as a division of rationals (42_statistics.md R161). -/
theorem ratioOf_eq_div {total : Nat} (h : total ≠ 0) (miss : Nat) :
    ratioOf miss total = 100 * (miss : Rat) / (total : Rat) := by
  simp [ratioOf, h, Rat.mkRat_eq_div, Config.ratioScale]

theorem ratioOf_nonneg (miss total : Nat) : 0 ≤ ratioOf miss total := by
  rcases Nat.eq_zero_or_pos total with rfl | h
  · rw [ratioOf_no_events]
  · rw [ratioOf_eq_div h.ne']
    positivity

theorem ratioOf_le {miss total : Nat} (h : miss ≤ total) : ratioOf miss total ≤ 100 := by
  rcases Nat.eq_zero_or_pos total with rfl | ht
  · rw [ratioOf_no_events]
    norm_num
  · have hpos : (0 : Rat) < total := by exact_mod_cast ht
    have hle : (miss : Rat) ≤ total := by exact_mod_cast h
    rw [ratioOf_eq_div ht.ne', div_le_iff₀ hpos]
    linarith

/-- Settles O27: RATIO drives `ratioOutOf`, and each clause is a fact about `ratioOf`. -/
theorem ratioDrivesTheExactPercentage : Obligations.RatioDrivesTheExactPercentage := by
  unfold Obligations.RatioDrivesTheExactPercentage
  intro s p hs
  refine ⟨_, execRatio_ready hs, fun hzero => ?none, fun hne => ?some, rfl,
    fun hle => ⟨ratioOf_nonneg _ _, ratioOf_le hle⟩, fun heq hne => ?all⟩
  case none =>
    rw [hzero]
    rfl
  case some =>
    have hne' : (p.totalCount.toNat : Rat) ≠ 0 := by exact_mod_cast hne
    exact (congrArg (· * _) (ratioOf_eq_div hne _)).trans (div_mul_cancel₀ _ hne')
  case all =>
    have hne' : (p.totalCount.toNat : Rat) ≠ 0 := by exact_mod_cast hne
    rw [heq]
    exact (ratioOf_eq_div hne _).trans (mul_div_cancel_right₀ _ hne')

/-! ### The read-only operations leave no trace -/

/-- No operation reads the result ports. -/
theorem exec_withOut (i : Instr) (s : State) (o : Outputs) : exec i (s.withOut o) = exec i s := by
  cases i <;> rfl

/-- A read-only operation that stays in its phase only drives result ports. -/
theorem exec_readOnly {s t : State} {i : Instr} (hi : i = .nop ∨ i = .stats ∨ i = .ratio ∨ ∃ k, i = .peek k)
    (h : exec i s = .next t) (hphase : t.phase = s.phase) : ∃ o, t = s.withOut o := by
  rcases hi with rfl | rfl | rfl | ⟨k, rfl⟩
  · exact ⟨_, (Host.Outcome.next.inj h).symm⟩
  · obtain ⟨p, -, ht⟩ := execStats_cases h
    exact ⟨_, ht⟩
  · obtain ⟨p, -, ht⟩ := execRatio_cases h
    exact ⟨_, ht⟩
  · obtain ⟨p, hp, ⟨-, ht⟩ | ⟨-, rfl⟩⟩ := execPeek_cases h
    · exact ⟨_, ht⟩
    · rw [raise_tableIndexOutOfRange_phase hp, State.phase, hp] at hphase
      cases hphase

/-- Settles O31: the result ports, all that changed, are read by no operation. -/
theorem readOnlyOperationsLeaveNoTrace : Obligations.ReadOnlyOperationsLeaveNoTrace := by
  unfold Obligations.ReadOnlyOperationsLeaveNoTrace
  intro s t i hi h hphase
  obtain ⟨o, rfl⟩ := exec_readOnly hi h hphase
  exact ⟨rfl, rfl, rfl, fun j => exec_withOut j s o⟩

/-! ### The laws of get and set, and the canonical form -/

/-- Of two sets of one counter the second stays (40_table_ops.md R105 (d)). -/
theorem put_put {t : Table} (ht : t.units.wf = true) {i v w : Nat} (hv : v ≤ 3) (hw : w ≤ 3) :
    (t.put i v).put i w = t.put i w := by
  have htv := put_wf ht i v
  refine table_eq_of_counters (put_wf htv i w) (put_wf ht i w) rfl fun j => ?_
  rw [counter_put htv i j hw, counter_put ht i j hw, counter_put ht i j hv]
  split <;> rfl

/-- Settles O34: in range `set` is `put`, and each law is one of `put`'s. -/
theorem tableGetSetLaws : Obligations.TableGetSetLaws := by
  unfold Obligations.TableGetSetLaws
  intro t i v w ht hi hv hw
  refine ⟨t.put i v, t.put i w, set_ok hi hv, set_ok hi hw, put_wf ht i v, put_ncounters t i v,
    get_put_same ht hi hv, fun j => get_put_of_ne ht hv, ?second, fun hsame => ?same⟩
  case second => rw [set_ok (by rwa [put_ncounters]) hw, put_put ht hv hw]
  case same =>
    rw [get_ok hi] at hsame
    obtain rfl := Except.ok.inj hsame
    exact put_counter ht i

theorem State.memory_ready {s : State} {p : Predictor} (h : s.block = .ready p) : s.memory = p.table.units := by
  simp [State.memory, h]

/-- A fault keeps what the block held (60_exceptions.md R187). -/
theorem State.memory_fault {s t : State} (h : t.block = s.block.fault) : t.memory = s.memory := by
  unfold State.memory
  rw [h]
  cases s.block <;> rfl

/-- Settles O37: a construction lists no unit, UPDATE and TBL_SET write with `put`, which keeps the form, and a fault or a
read-only operation leaves the units alone. -/
theorem everyOperationKeepsTheCanonicalForm : Obligations.EveryOperationKeepsTheCanonicalForm := by
  unfold Obligations.EveryOperationKeepsTheCanonicalForm
  intro i s t hs h
  have faulted : ∀ {t : State}, t.block = s.block.fault → t.memory.wf = true :=
    fun hb => (State.memory_fault hb).symm ▸ hs
  rcases exec_cases h with ⟨ib, hb, -, ⟨-, rfl⟩ | ⟨-, rfl⟩⟩ | ⟨a, o, p, -, hp, -, ⟨-, rfl⟩ | ⟨-, rfl⟩⟩ |
    ⟨k, p, -, -, -, rfl⟩ | ⟨-, o, rfl⟩ | ⟨k, v, p, -, hp, ⟨-, -, rfl⟩ | ⟨-, rfl⟩ | ⟨-, -, rfl⟩⟩
  · exact ⟨Memory.wf_nil, rfl⟩
  · exact ⟨Memory.wf_nil, rfl⟩
  · exact ⟨put_wf (State.memory_ready hp ▸ hs) _ _, rfl⟩
  · exact ⟨faulted rfl, rfl⟩
  · exact ⟨faulted rfl, rfl⟩
  · exact ⟨hs, rfl⟩
  · exact ⟨put_wf (State.memory_ready hp ▸ hs) _ _, rfl⟩
  · exact ⟨faulted rfl, rfl⟩
  · exact ⟨faulted rfl, rfl⟩

end Sys2Proof.Machine
end

section
/-! SUPPORT. When an UPDATE completes, raises or is refused, which counter it selects, and UPDATE without history
(41_predictor_update.md R144 to R148). -/

namespace Sys2Proof.Machine

/-! ### The answers of an UPDATE on a `Ready` block -/

section answers
variable {s : State} {p : Predictor} {a : Nat} (hs : s.block = .ready p)
include hs

theorem execUpdate_full (hfull : p.totalCount.toNat = statMax) (o : PredictionOutcome) :
    execUpdate a o s = .refused .statisticsFull := by
  rw [execUpdate, whenReady_ready hs, if_pos hfull]

variable (hroom : p.totalCount.toNat ≠ statMax)
  (hvalid : validConfig p.indexBits.toNat p.historyBits.toNat = true)
include hroom hvalid

/-- Of the invariant an UPDATE needs the valid configuration and the index in the table, and not the bound of the history. -/
theorem execUpdate_inside (hi : p.selectedCounter a < p.table.ncounters) (o : PredictionOutcome) :
    execUpdate a o s = .next { s with block := .ready (p.updated a o), out := Outputs.idle } := by
  simp [execUpdate, whenReady_ready hs, hroom, hvalid, get_ok hi, orRaise,
    set_ok hi (nextCounter_le o (counter_le _ _)), Predictor.updated]

theorem execUpdate_outside (hi : p.table.ncounters ≤ p.selectedCounter a) (o : PredictionOutcome) :
    execUpdate a o s = .next (raise (.tableIndexOutOfRange (p.selectedCounter a)) s) := by
  simp [execUpdate, whenReady_ready hs, hroom, hvalid, get_error hi, orRaise]

end answers

/-- Settles O25: the first check of UPDATE refuses. -/
theorem updateIsRefusedWhenTheStatisticsAreFull : Obligations.UpdateIsRefusedWhenTheStatisticsAreFull := by
  unfold Obligations.UpdateIsRefusedWhenTheStatisticsAreFull
  exact fun s p a o hs hfull => execUpdate_full hs hfull o

/-- Settles O20: outside the table the read of UPDATE ends in `raise`. -/
theorem updateRaisesWhereTheTableIsTooSmall : Obligations.UpdateRaisesWhereTheTableIsTooSmall := by
  unfold Obligations.UpdateRaisesWhereTheTableIsTooSmall
  intro s p a o hs hroom hvalid hi
  exact ⟨_, execUpdate_outside hs hroom hvalid hi o, raise_tableIndexOutOfRange_phase hs _, raise_errCode _ _,
    raise_out _ _, raise_pending _ _⟩

/-- Settles O19: the invariant puts the selected counter in the table, where both calls answer `.ok`. -/
theorem updateTableAccessesAreInRange : Obligations.UpdateTableAccessesAreInRange := by
  unfold Obligations.UpdateTableAccessesAreInRange
  intro p a o hp
  have hi := hp.selected_lt a
  have hle := counter_le p.table (p.selectedCounter a)
  exact ⟨hp.ncounters ▸ hi, hp.ncounters, _, _, get_ok hi, hle, set_ok hi (nextCounter_le o hle)⟩

/-! ### The selected counter under the invariant (R144, R146) -/

section fold
variable {p : Predictor} (hp : p.Inv)
include hp

/-- A number of `indexBits` bits passes the mask. -/
theorem Predictor.Inv.and_indexMask {n : Nat} (h : n < 2 ^ p.indexBits.toNat) : n &&& p.indexMask.toNat = n := by
  rw [hp.mask, and_mask, Nat.mod_eq_of_lt h]

/-- The history shifted to the top of the index stays within `indexBits` bits. -/
theorem Predictor.Inv.shifted_history_lt :
    p.h.toNat <<< (p.indexBits.toNat - p.historyBits.toNat) < 2 ^ p.indexBits.toNat := by
  have hc := validConfig_iff.mp hp.config
  have hsplit : p.historyBits.toNat + (p.indexBits.toNat - p.historyBits.toNat) = p.indexBits.toNat := by omega
  calc p.h.toNat <<< (p.indexBits.toNat - p.historyBits.toNat)
      = p.h.toNat * 2 ^ (p.indexBits.toNat - p.historyBits.toNat) := Nat.shiftLeft_eq _ _
    _ < 2 ^ p.historyBits.toNat * 2 ^ (p.indexBits.toNat - p.historyBits.toNat) :=
        Nat.mul_lt_mul_of_pos_right hp.history (Nat.two_pow_pos _)
    _ = 2 ^ p.indexBits.toNat := by rw [← Nat.pow_add, hsplit]

theorem Predictor.Inv.history_lt_indexBits : p.h.toNat < 2 ^ p.indexBits.toNat := by
  have hc := validConfig_iff.mp hp.config
  exact lt_of_lt_of_le hp.history (Nat.pow_le_pow_right (by omega) (by omega))

theorem Predictor.Inv.foldedHistory_eq :
    p.foldedHistory = p.h.toNat <<< (p.indexBits.toNat - p.historyBits.toNat) := by
  simp only [Predictor.foldedHistory, hp.and_indexMask hp.history_lt_indexBits,
    hp.and_indexMask hp.shifted_history_lt]

/-- Without history the register holds 0. -/
theorem Predictor.Inv.h_eq_zero (h : p.historyBits.toNat = 0) : p.h.toNat = 0 := by
  have hlt := hp.history
  rw [h] at hlt
  omega

/-- The selected counter without masks, with history and without. -/
theorem Predictor.Inv.selectedCounter_eq_xor (a : Nat) :
    p.selectedCounter a = (a % 2 ^ p.indexBits.toNat) ^^^
      (p.h.toNat <<< (p.indexBits.toNat - p.historyBits.toNat)) := by
  rcases Nat.eq_zero_or_pos p.historyBits.toNat with h | h
  · rw [selectedCounter_of_no_history h, truncatedAddress_eq_mod hp.mask, hp.h_eq_zero h, Nat.zero_shiftLeft,
      Nat.xor_zero]
  · rw [selectedCounter_of_history h, truncatedAddress_eq_mod hp.mask, hp.foldedHistory_eq]

end fold

/-- Settles O21: what the masks see is below `2^indexBits`. -/
theorem masksOfTheFoldAreTheIdentity : Obligations.MasksOfTheFoldAreTheIdentity := by
  unfold Obligations.MasksOfTheFoldAreTheIdentity
  exact fun p a hp =>
    ⟨hp.and_indexMask hp.history_lt_indexBits, fun _ => hp.foldedHistory_eq, hp.selectedCounter_eq_xor a⟩

/-- Two XORs agree where their operands differ alike. -/
theorem xor_eq_xor_iff (x y z w : Nat) : x ^^^ y = z ^^^ w ↔ x ^^^ z = y ^^^ w := by
  have hswap : x ^^^ y ^^^ (z ^^^ w) = x ^^^ z ^^^ (y ^^^ w) := by ac_rfl
  rw [← Nat.xor_eq_zero_iff, hswap, Nat.xor_eq_zero_iff]

/-- Settles O22: both counters without masks, the addresses moved to one side and the histories to the other. -/
theorem aliasingCriterion : Obligations.AliasingCriterion := by
  unfold Obligations.AliasingCriterion
  intro p q a b hp hq hib hhb
  rw [hp.selectedCounter_eq_xor, hq.selectedCounter_eq_xor, hib, hhb, xor_eq_xor_iff, hp.mask, and_mask,
    Nat.xor_mod_two_pow, Nat.shiftLeft_xor_distrib]

/-! ### UPDATE without history (R145, 70_reset_and_hazards.md R214) -/

/-- Predictors with the same seven fields are the same. -/
theorem Predictor.eq_of_fields {p q : Predictor} (hib : p.indexBits = q.indexBits) (hhb : p.historyBits = q.historyBits)
    (hmask : p.indexMask = q.indexMask) (hh : p.h = q.h) (hmiss : p.missCount = q.missCount)
    (htotal : p.totalCount = q.totalCount) (htable : p.table = q.table) : p = q := by
  cases p
  cases q
  congr

section noHistory
variable {p : Predictor} (h : p.historyBits.toNat = 0)
include h

theorem updated_h_of_no_history (a : Nat) (o : PredictionOutcome) : (p.updated a o).h = p.h := by
  rw [updated_h, shiftHistory, if_pos h, BitVec.ofNat_toNat, BitVec.setWidth_eq]

/-- Another value in the register selects the same counter. -/
theorem selectedCounter_with_h (g : BitVec 32) (a : Nat) :
    ({ p with h := g } : Predictor).selectedCounter a = p.selectedCounter a :=
  (selectedCounter_of_no_history (p := { p with h := g }) h).trans (selectedCounter_of_no_history h).symm

/-- The update of a predictor with another value in the register is the update with that value in it. -/
theorem updated_with_h (g : BitVec 32) (a : Nat) (o : PredictionOutcome) :
    ({ p with h := g } : Predictor).updated a o = { p.updated a o with h := g } := by
  have hh : (({ p with h := g } : Predictor).updated a o).h = g := updated_h_of_no_history (p := { p with h := g }) h a o
  have ht := updated_table_of_no_history h g a o
  have hm : (({ p with h := g } : Predictor).updated a o).missCount = (p.updated a o).missCount := by
    rw [updated_missCount, updated_missCount, selectedCounter_with_h h]
  exact Predictor.eq_of_fields rfl rfl rfl hh hm rfl ht

/-- UPDATE leaves the selection of every address alone. -/
theorem selectedCounter_updated (a b : Nat) (o : PredictionOutcome) :
    (p.updated a o).selectedCounter b = p.selectedCounter b :=
  (selectedCounter_of_no_history (p := p.updated a o) h).trans (selectedCounter_of_no_history h).symm

end noHistory

/-- Settles O23: the `q` of the statement is the update of `p` itself; the register takes no part in it. -/
theorem withoutHistoryTheRegisterIsInert : Obligations.WithoutHistoryTheRegisterIsInert := by
  unfold Obligations.WithoutHistoryTheRegisterIsInert
  intro s p a o hs hb
  have hnone : p.historyBits.toNat = 0 := by simp [hb]
  refine ⟨p.updated a o, fun g => ?_⟩
  have hi : ({ p with h := g } : Predictor).selectedCounter a < p.table.ncounters := by
    rw [selectedCounter_with_h hnone]
    exact hs.inv.selected_lt a
  rw [← updated_with_h hnone]
  exact execUpdate_inside (p := { p with h := g }) rfl hs.notFull.ne hs.inv.config hi o

/-- Writes of different counters commute (40_table_ops.md R105 (b)). -/
theorem put_comm {t : Table} (ht : t.units.wf = true) {i j v w : Nat} (hij : i ≠ j) (hv : v ≤ 3) (hw : w ≤ 3) :
    (t.put i v).put j w = (t.put j w).put i v := by
  have hti := put_wf ht i v
  have htj := put_wf ht j w
  refine table_eq_of_counters (put_wf hti j w) (put_wf htj i v) rfl fun k => ?_
  rw [counter_put hti j k hw, counter_put ht i k hv, counter_put htj i k hv, counter_put ht j k hw]
  by_cases hkj : k = j
  · simp [hkj, hij.symm]
  · simp [hkj]

section commute
variable {p : Predictor} {a b : Nat} (hwf : p.table.units.wf = true) (h : p.historyBits.toNat = 0)
  (hne : p.selectedCounter a ≠ p.selectedCounter b) (o o' : PredictionOutcome)
include hwf h hne

/-- The counter another UPDATE reads is the one it would have read before. -/
theorem counter_selected_updated :
    (p.updated a o).table.counter ((p.updated a o).selectedCounter b) = p.table.counter (p.selectedCounter b) := by
  rw [selectedCounter_updated h, updated_table, counter_put hwf _ _ (nextCounter_le o (counter_le _ _)), if_neg hne.symm]

/-- UPDATEs of different counters commute: the writes do, and each comparator sees the counter it would have seen first. -/
theorem updated_comm : (p.updated a o).updated b o' = (p.updated b o').updated a o := by
  have hcb := counter_selected_updated hwf h hne o
  have hca := counter_selected_updated hwf h hne.symm o'
  have hh : ((p.updated a o).updated b o').h = ((p.updated b o').updated a o).h := by
    rw [updated_h_of_no_history (p := p.updated a o) h, updated_h_of_no_history (p := p.updated b o') h,
      updated_h_of_no_history h, updated_h_of_no_history h]
  have hmiss : ((p.updated a o).updated b o').missCount = ((p.updated b o').updated a o).missCount := by
    rw [updated_missCount, hcb, updated_missCount, updated_missCount, hca, updated_missCount]
    split <;> split <;> rfl
  have htable : ((p.updated a o).updated b o').table = ((p.updated b o').updated a o).table := by
    rw [updated_table, hcb, selectedCounter_updated h, updated_table, updated_table, hca, selectedCounter_updated h,
      updated_table]
    exact put_comm hwf hne (nextCounter_le o (counter_le _ _)) (nextCounter_le o' (counter_le _ _))
  exact Predictor.eq_of_fields rfl rfl rfl hh hmiss rfl htable

end commute

/-- The state an UPDATE leaves takes another one, where there is room for both. -/
theorem UpdateEnabled.updated {s : State} {p : Predictor} (hs : UpdateEnabled s p)
    (hroom : p.totalCount.toNat + 1 < statMax) (a : Nat) (o : PredictionOutcome) :
    UpdateEnabled { s with block := .ready (p.updated a o), out := Outputs.idle } (p.updated a o) where
  ready := rfl
  inv := updated_inv hs.inv hs.notFull a o
  notFull := by rwa [updated_totalCount, toNat_add_one hs.notFull]

/-- Settles O24: each UPDATE completes, and the two predictors are the same by `updated_comm`. -/
theorem updatesOfDifferentCountersCommuteWithoutHistory :
    Obligations.UpdatesOfDifferentCountersCommuteWithoutHistory := by
  unfold Obligations.UpdatesOfDifferentCountersCommuteWithoutHistory
  intro s p a b o o' hs hroom hb hne
  have hnone : p.historyBits.toNat = 0 := by simp [hb]
  have hcomm := updated_comm hs.inv.canonical hnone hne o o'
  refine ⟨_, _, _, execUpdate_enabled hs a o, execUpdate_enabled (hs.updated hroom a o) b o',
    execUpdate_enabled hs b o', ?_⟩
  rw [hcomm]
  exact execUpdate_enabled (hs.updated hroom b o') a o

end Sys2Proof.Machine
end

section
/-! SUPPORT. Whole runs: an admitted schedule runs to its end, a trace is a fold of `updated`, and that fold is the plain gshare
predictor of the rules (41_predictor_update.md sections 2 and 3, 10_state.md R35). -/

namespace Sys2Proof.Machine

/-- A step that sees an operation on its ports runs it. -/
theorem step_portsOf {s : State} {i : Instr} {rest : List Ports} (hwf : i.wf = true) (hissue : i.issuable = true)
    (hpend : s.pending = portsOf i :: rest) : step s = exec i (s.withPending rest) := by
  rw [step_cons hpend, decode_portsOf hwf hissue]

/-! ### Admitted schedules (60_exceptions.md R197, 42_statistics.md R166) -/

/-- The operations that never raise on a `Ready` block with `n` counters, as `AdmittedSchedulesRunToTheirEnd` lists them. -/
def Admitted (n : Nat) (i : Instr) : Prop :=
  i = .nop ∨ i = .stats ∨ i = .ratio ∨ (∃ a o, i = .update a o) ∨ ∃ k, i = .peek k ∧ k < n

theorem Admitted.issuable {n : Nat} {i : Instr} (h : Admitted n i) : i.issuable = true := by
  rcases h with rfl | rfl | rfl | ⟨a, o, rfl⟩ | ⟨k, rfl, -⟩ <;> rfl

/-- An admitted operation is an UPDATE or only drives result ports. -/
theorem Admitted.cases {s : State} {p : Predictor} {i : Instr} (hs : s.block = .ready p)
    (h : Admitted p.table.ncounters i) :
    (∃ a o, i = .update a o) ∨ (isUpdate i = false ∧ ∃ o, exec i s = .next (s.withOut o)) := by
  rcases h with rfl | rfl | rfl | hupdate | ⟨k, rfl, hk⟩
  · exact .inr ⟨rfl, _, rfl⟩
  · exact .inr ⟨rfl, _, whenReady_ready hs _⟩
  · exact .inr ⟨rfl, _, execRatio_ready hs⟩
  · exact .inl hupdate
  · exact .inr ⟨rfl, _, execPeek_inside hs hk⟩

/-- An admitted operation keeps the block `Ready`, within the invariant and of the same size, and counts itself if it is an
UPDATE. -/
theorem exec_admitted {s : State} {p : Predictor} {i : Instr} (hinv : s.Inv) (hs : s.block = .ready p)
    (h : Admitted p.table.ncounters i)
    (hroom : p.totalCount.toNat + (if isUpdate i = true then 1 else 0) ≤ statMax) :
    ∃ t q, exec i s = .next t ∧ t.Inv ∧ t.block = .ready q ∧ t.pending = s.pending ∧
      q.table.ncounters = p.table.ncounters ∧
      q.totalCount.toNat = p.totalCount.toNat + (if isUpdate i = true then 1 else 0) := by
  obtain ⟨herr, hp⟩ := hinv.of_ready hs
  rcases h.cases hs with ⟨a, o, rfl⟩ | ⟨hread, o, he⟩
  · have hfree : p.totalCount.toNat < statMax := hroom
    exact ⟨_, _, execUpdate_enabled ⟨hs, hp, hfree⟩ a o, ⟨herr, updated_inv hp hfree a o⟩, rfl, rfl, rfl,
      toNat_add_one hfree⟩
  · exact ⟨_, p, he, (State.Inv_congr rfl rfl).mpr hinv, hs, rfl, rfl, by simp [hread]⟩

/-- A schedule of admitted operations runs to its end. -/
theorem runSteps_admitted (ops : List Instr) (rest : List Ports) {s : State} {p : Predictor} (hinv : s.Inv)
    (hs : s.block = .ready p) (hpend : s.pending = ops.map portsOf ++ rest)
    (hops : ∀ i ∈ ops, i.wf = true ∧ Admitted p.table.ncounters i)
    (hroom : p.totalCount.toNat + ops.countP isUpdate ≤ statMax) :
    ∃ t q, runSteps ops.length s = .next t ∧ t.block = .ready q ∧ t.Inv ∧ t.pending = rest ∧
      q.totalCount.toNat = p.totalCount.toNat + ops.countP isUpdate := by
  induction ops generalizing s p with
  | nil => exact ⟨s, p, rfl, hs, hinv, hpend, rfl⟩
  | cons i ops ih =>
    obtain ⟨⟨hwf, hi⟩, hops⟩ := List.forall_mem_cons.mp hops
    rw [List.countP_cons] at hroom ⊢
    obtain ⟨t, q, he, htinv, ht, htpend, hsize, hcount⟩ :=
      exec_admitted (s := s.withPending (ops.map portsOf ++ rest)) ((State.Inv_congr rfl rfl).mpr hinv) hs hi (by omega)
    have hstep : step s = .next t := (step_portsOf hwf hi.issuable hpend).trans he
    obtain ⟨u, r, hrun, hu, huinv, hupend, hutotal⟩ :=
      ih htinv ht htpend (fun j hj => hsize.symm ▸ hops j hj) (by omega)
    exact ⟨u, r, (runSteps_next hstep).trans hrun, hu, huinv, hupend, by omega⟩

/-- Settles O41, by induction on the schedule. -/
theorem admittedSchedulesRunToTheirEnd : Obligations.AdmittedSchedulesRunToTheirEnd := by
  unfold Obligations.AdmittedSchedulesRunToTheirEnd
  exact fun s p ops rest => runSteps_admitted ops rest

/-! ### The predictor after a trace -/

/-- The UPDATEs of a trace, in order. -/
def Predictor.afterTrace (p : Predictor) (es : List Event) : Predictor :=
  es.foldl (fun p e => p.updated e.1 e.2) p

section trace
variable (p : Predictor) (e : Event) (es : List Event)

@[simp] theorem afterTrace_nil : p.afterTrace [] = p := rfl

@[simp] theorem afterTrace_cons : p.afterTrace (e :: es) = (p.updated e.1 e.2).afterTrace es := rfl

theorem afterTrace_concat : p.afterTrace (es ++ [e]) = (p.afterTrace es).updated e.1 e.2 := by
  simp [Predictor.afterTrace]

@[simp] theorem afterTrace_historyBits : (p.afterTrace es).historyBits = p.historyBits := by
  induction es generalizing p with
  | nil => rfl
  | cons e es ih => rw [afterTrace_cons, ih, updated_historyBits]

end trace

/-- Room for `n + 1` events is room for one and, after it, for `n`. -/
theorem updated_room {p : Predictor} {n : Nat} (h : p.totalCount.toNat + (n + 1) ≤ statMax) (a : Nat)
    (o : PredictionOutcome) : (p.updated a o).totalCount.toNat + n ≤ statMax := by
  rw [updated_totalCount, toNat_add_one (by omega)]
  omega

theorem afterTrace_inv {p : Predictor} {es : List Event} (hp : p.Inv)
    (hroom : p.totalCount.toNat + es.length ≤ statMax) : (p.afterTrace es).Inv := by
  induction es generalizing p with
  | nil => exact hp
  | cons e es ih =>
    rw [List.length_cons] at hroom
    exact ih (updated_inv hp (by omega) _ _) (updated_room hroom _ _)

theorem update_wf {a : Nat} (h : a < 2 ^ Config.addrW) (o : PredictionOutcome) : (Instr.update a o).wf = true :=
  fits_iff.mpr h

/-- From a `Ready` block a trace runs to its end and leaves `afterTrace`. -/
theorem runSteps_trace (es : List Event) (rest : List Ports) {s : State} {p : Predictor} (hs : s.block = .ready p)
    (hp : p.Inv) (haddr : ∀ e ∈ es, e.1 < 2 ^ Config.addrW) (hroom : p.totalCount.toNat + es.length ≤ statMax)
    (hpend : s.pending = es.map eventPorts ++ rest) :
    ∃ t, runSteps es.length s = .next t ∧ t.block = .ready (p.afterTrace es) ∧ t.errCode = s.errCode ∧
      t.pending = rest := by
  induction es generalizing s p with
  | nil => exact ⟨s, rfl, hs, rfl, hpend⟩
  | cons e es ih =>
    obtain ⟨he, haddr⟩ := List.forall_mem_cons.mp haddr
    rw [List.length_cons] at hroom
    have hfree : p.totalCount.toNat < statMax := by omega
    have henabled : UpdateEnabled (s.withPending (es.map eventPorts ++ rest)) p := ⟨hs, hp, hfree⟩
    have hstep := (step_portsOf (update_wf he e.2) rfl hpend).trans (execUpdate_enabled henabled e.1 e.2)
    rw [List.length_cons, runSteps_next hstep]
    exact ih rfl (updated_inv hp hfree e.1 e.2) haddr (updated_room hroom e.1 e.2) rfl

theorem construct_wf {ib hb : Nat} (h : validConfig ib hb = true) : (Instr.construct ib hb).wf = true := by
  have hc := validConfig_iff.mp h
  exact Bool.and_eq_true_iff.mpr ⟨fits_iff.mpr (by omega), fits_iff.mpr (by omega)⟩

/-- A presented trace has room in the statistics of the predictor that its CONSTRUCT builds. -/
theorem PresentsRun.fresh_room {s : State} {ib hb : Nat} {es : List Event} {rest : List Ports}
    (h : PresentsRun s ib hb es rest) (n : Nat) :
    (freshPredictor ib hb n).totalCount.toNat + es.length ≤ statMax := by
  simpa using h.notFull

/-- A presented run ends without an error, with the fresh predictor taken through the trace, whatever the block was. -/
theorem runSteps_presented {s : State} {ib hb : Nat} {es : List Event} {rest : List Ports}
    (h : PresentsRun s ib hb es rest) :
    ∃ t, runSteps (es.length + 1) s = .next t ∧
      t.block = .ready ((freshPredictor ib hb (2 ^ (ib - 2))).afterTrace es) ∧ t.errCode = 0 ∧ t.pending = rest := by
  have hstep := (step_portsOf (construct_wf h.configuration) rfl h.schedule).trans
    (execConstruct_valid h.configuration _)
  rw [runSteps_next hstep]
  exact runSteps_trace es rest rfl (freshPredictor_inv h.configuration) h.addresses (h.fresh_room _) rfl

/-! ### The plain predictor of the rules, one equation per field -/

section event
variable (ib hb : Nat) (g : Gshare) (e : Event)

theorem event_counters (hle : g.counters (g.index ib hb e.1) ≤ 3) (j : Nat) :
    (g.event ib hb e).counters j =
      if j = g.index ib hb e.1 then nextCounter e.2 (g.counters (g.index ib hb e.1)) else g.counters j := by
  obtain ⟨a, o⟩ := e
  cases o <;> simp only [Gshare.event, nextCounter] <;> split_ifs <;> omega

theorem event_history :
    (g.event ib hb e).history = if hb = 0 then 0 else g.history / 2 + (if e.2 = .taken then 2 ^ (hb - 1) else 0) := by
  obtain ⟨a, o⟩ := e
  cases o <;> rfl

theorem event_misses :
    (g.event ib hb e).misses = g.misses + if isMiss e.2 (g.counters (g.index ib hb e.1)) then 1 else 0 := by
  obtain ⟨a, o⟩ := e
  cases o <;> simp only [Gshare.event, isMiss, decide_eq_true_eq] <;> split_ifs <;> omega

theorem event_total : (g.event ib hb e).total = g.total + 1 := by
  obtain ⟨a, o⟩ := e
  cases o <;> rfl

end event

/-! ### The simulation -/

/-- The packed predictor `p` of configuration (`ib`, `hb`) stands for the plain predictor `g`. -/
structure Simulates (ib hb : Nat) (p : Predictor) (g : Gshare) : Prop where
  indexBits : p.indexBits.toNat = ib
  historyBits : p.historyBits.toNat = hb
  counters : ∀ i, p.table.counter i = g.counters i
  history : p.h.toNat = g.history
  misses : p.missCount.toNat = g.misses
  total : p.totalCount.toNat = g.total

theorem simulates_fresh {ib hb : Nat} (h : validConfig ib hb = true) (n : Nat) :
    Simulates ib hb (freshPredictor ib hb n) Gshare.fresh where
  indexBits := toNat_indexBits h
  historyBits := toNat_historyBits h
  counters := init_counter n
  history := rfl
  misses := rfl
  total := rfl

section simulation
variable {ib hb : Nat} {p : Predictor} {g : Gshare} (hsim : Simulates ib hb p g) (hp : p.Inv)
include hsim hp

/-- Masks and fold select the counter that the plain predictor selects (41_predictor_update.md R144). -/
theorem Simulates.selectedCounter (a : Nat) : p.selectedCounter a = g.index ib hb a := by
  rw [hp.selectedCounter_eq_xor, Gshare.index, hsim.indexBits, hsim.historyBits, hsim.history]
  split
  · next hzero =>
    have hnone : g.history = 0 := hsim.history.symm.trans (hp.h_eq_zero (hsim.historyBits.trans hzero))
    rw [hnone, Nat.zero_shiftLeft]
  · rw [Nat.shiftLeft_eq]

/-- The register holds the history of the plain predictor after the event. -/
theorem Simulates.updated_history (e : Event) : (p.updated e.1 e.2).h.toNat = (g.event ib hb e).history := by
  have hlt := hp.history
  rw [updated_h_toNat hp, event_history, hsim.historyBits, ← hsim.history]
  rw [hsim.historyBits] at hlt
  split
  · next hzero =>
    subst hzero
    rw [shiftHistory, if_pos rfl]
    omega
  · next hne => exact shiftHistory_eq_add e.2 (Nat.pos_of_ne_zero hne) hlt

/-- The commuting diagram of one event. -/
theorem Simulates.event (hfree : p.totalCount.toNat < statMax) (e : Event) :
    Simulates ib hb (p.updated e.1 e.2) (g.event ib hb e) := by
  have hsel := hsim.selectedCounter hp e.1
  have hcnt : p.table.counter (p.selectedCounter e.1) = g.counters (g.index ib hb e.1) := by rw [hsel, hsim.counters]
  have hle : g.counters (g.index ib hb e.1) ≤ 3 := hcnt ▸ counter_le _ _
  exact
    { indexBits := hsim.indexBits
      historyBits := hsim.historyBits
      counters := fun j => by
        rw [event_counters _ _ _ _ hle, updated_table, hcnt, hsel, counter_put hp.canonical _ _ (nextCounter_le _ hle),
          hsim.counters]
      history := hsim.updated_history hp e
      misses := by
        rw [updated_missCount_toNat (lt_of_le_of_lt hp.statistics hfree), hcnt, hsim.misses, event_misses]
      total := by rw [updated_totalCount, toNat_add_one hfree, hsim.total, event_total] }

end simulation

/-- The simulation along a trace. -/
theorem Simulates.trace {ib hb : Nat} {p : Predictor} {g : Gshare} (es : List Event) (hsim : Simulates ib hb p g)
    (hp : p.Inv) (hroom : p.totalCount.toNat + es.length ≤ statMax) :
    Simulates ib hb (p.afterTrace es) (es.foldl (Gshare.event ib hb) g) := by
  induction es generalizing p g with
  | nil => exact hsim
  | cons e es ih =>
    rw [List.length_cons] at hroom
    have hfree : p.totalCount.toNat < statMax := by omega
    exact ih (hsim.event hp hfree e) (updated_inv hp hfree e.1 e.2) (updated_room hroom e.1 e.2)

theorem foldl_event_total (ib hb : Nat) (g : Gshare) (es : List Event) :
    (es.foldl (Gshare.event ib hb) g).total = g.total + es.length := by
  induction es generalizing g with
  | nil => rfl
  | cons e es ih =>
    rw [List.foldl_cons, ih, event_total, List.length_cons]
    omega

/-- Settles O42: the run ends with the fresh predictor taken through the trace, which simulates the plain one. -/
theorem runMatchesTheLogicalPredictor : Obligations.RunMatchesTheLogicalPredictor := by
  unfold Obligations.RunMatchesTheLogicalPredictor
  intro s ib hb es rest h
  obtain ⟨t, hrun, ht, herr, hpend⟩ := runSteps_presented h
  have hroom := h.fresh_room (2 ^ (ib - 2))
  have hinv := afterTrace_inv (freshPredictor_inv h.configuration) hroom
  have hsim : Simulates ib hb _ (Gshare.run ib hb es) :=
    (simulates_fresh h.configuration (2 ^ (ib - 2))).trace es (freshPredictor_inv h.configuration) hroom
  have hsuccess : t.successful = true := by simp [State.successful, State.phase, ht, herr]
  refine ⟨t, _, hrun, ht, hsuccess, hpend, fun i hi => ?counters, hsim.history, hsim.misses, ?total⟩
  case counters =>
    rw [get_ok (by rwa [hinv.ncounters, hsim.indexBits]), hsim.counters]
  case total =>
    rw [hsim.total, Gshare.run, foldl_event_total]
    exact Nat.zero_add _

/-! ### The history after a trace (30_encoding.md R72) -/

/-- Whether the event `k` places before the end of the trace was taken; false where there was none. -/
def recentTaken (es : List Event) (k : Nat) : Bool :=
  match es.reverse[k]? with
  | some e => decide (e.2 = .taken)
  | none => false

theorem recentTaken_nil (k : Nat) : recentTaken [] k = false := rfl

theorem recentTaken_concat_zero (es : List Event) (e : Event) :
    recentTaken (es ++ [e]) 0 = decide (e.2 = .taken) := by
  simp [recentTaken]

theorem recentTaken_concat_succ (es : List Event) (e : Event) (k : Nat) :
    recentTaken (es ++ [e]) (k + 1) = recentTaken es k := by
  simp [recentTaken]

/-- Bit `historyBits - 1 - k` of the history is the outcome `k` places back: the last event is at the top, and each
earlier outcome moved down one place. -/
theorem afterTrace_history_bit {p : Predictor} (hp : p.Inv) (hclear : p.h = 0) {es : List Event}
    (hroom : p.totalCount.toNat + es.length ≤ statMax) {k : Nat} (hk : k < p.historyBits.toNat) :
    (p.afterTrace es).h.getLsbD (p.historyBits.toNat - 1 - k) = recentTaken es k := by
  induction es using List.reverseRecOn generalizing k with
  | nil => simp [hclear, recentTaken_nil]
  | append_singleton es e ih =>
    rw [List.length_append, List.length_singleton] at hroom
    have hinv : (p.afterTrace es).Inv := afterTrace_inv hp (by omega)
    have hpos : 0 < p.historyBits.toNat := by omega
    have hlt : (p.afterTrace es).h.toNat < 2 ^ p.historyBits.toNat := by simpa using hinv.history
    rw [afterTrace_concat, ← BitVec.testBit_toNat, updated_h_toNat hinv, afterTrace_historyBits]
    cases k with
    | zero => rw [recentTaken_concat_zero, Nat.sub_zero, testBit_shiftHistory_top e.2 hpos hlt]
    | succ k =>
      have hplace : p.historyBits.toNat - 1 - (k + 1) + 1 = p.historyBits.toNat - 1 - k := by omega
      rw [recentTaken_concat_succ, testBit_shiftHistory_of_lt e.2 hpos (by omega), hplace, BitVec.testBit_toNat,
        ih (by omega) (by omega)]

/-- No bit of the history stands at or above `historyBits`. -/
theorem Predictor.Inv.history_bit_above {p : Predictor} (hp : p.Inv) {k : Nat} (hk : p.historyBits.toNat ≤ k) :
    p.h.getLsbD k = false := by
  rw [← BitVec.testBit_toNat]
  exact Nat.testBit_lt_two_pow (lt_of_lt_of_le hp.history (Nat.pow_le_pow_right (by omega) hk))

/-- Settles O43: the run leaves the fresh predictor taken through the trace, whose history bits are known. -/
theorem historyHoldsTheMostRecentOutcomes : Obligations.HistoryHoldsTheMostRecentOutcomes := by
  unfold Obligations.HistoryHoldsTheMostRecentOutcomes
  intro s ib hb es rest h
  obtain ⟨t, hrun, ht, -, -⟩ := runSteps_presented h
  have hroom := h.fresh_room (2 ^ (ib - 2))
  have hinv := freshPredictor_inv h.configuration
  have hwidth : (freshPredictor ib hb (2 ^ (ib - 2))).historyBits.toNat = hb := toNat_historyBits h.configuration
  refine ⟨t, _, hrun, ht, fun k hk => ?outcomes, fun k hk => ?above⟩
  case outcomes =>
    have hbit := afterTrace_history_bit hinv rfl hroom (hwidth.symm ▸ hk)
    rw [hwidth] at hbit
    exact hbit
  case above =>
    exact (afterTrace_inv hinv hroom).history_bit_above (by rwa [afterTrace_historyBits, hwidth])

end Sys2Proof.Machine
end

section
/-! SUPPORT. The rendering of a rational in the normal range is the nearest finite binary64 number, ties to even
(42_statistics.md R162; the layout is IEEE 754's, log 6). -/

namespace Sys2Proof.Machine

/-! ### Exponent and significand of the rendering -/

/-- The exponent of the rendering of a positive `q`. -/
def renderExponent (q : Rat) : Int := floorLog2 q.num.toNat q.den

/-- `q / 2^(renderExponent q - 52)` is the quotient of this numerator and the denominator below. -/
def renderNum (q : Rat) : Nat := q.num.toNat * 2 ^ (52 - renderExponent q).toNat

def renderDen (q : Rat) : Nat := q.den * 2 ^ (-(52 - renderExponent q)).toNat

/-- The significand of the rendering, an integer number of units in the last place. -/
def renderSignificand (q : Rat) : Nat := roundHalfEven (renderNum q) (renderDen q)

/-- The unit in the last place of the rendering. -/
def renderUnit (q : Rat) : Rat := (2 : Rat) ^ (renderExponent q - 52)

theorem renderUnit_pos (q : Rat) : 0 < renderUnit q := by
  unfold renderUnit
  positivity

theorem renderDen_pos (q : Rat) : 0 < renderDen q := Nat.mul_pos q.den_pos (Nat.two_pow_pos _)

/-- `2^52` units are the power of two at the exponent. -/
theorem two_pow_mul_renderUnit (q : Rat) : (2 : Rat) ^ 52 * renderUnit q = 2 ^ renderExponent q := by
  rw [renderUnit, ← zpow_natCast, ← zpow_add₀ two_ne_zero]
  congr 1
  push_cast
  ring

section positive
variable {q : Rat} (hq : 0 < q)
include hq

theorem renderBinary64_of_pos :
    renderBinary64 q = BitVec.ofNat 64 ((renderExponent q + 1022).toNat * 2 ^ 52 + renderSignificand q) := by
  have hnum : q.num.toNat ≠ 0 := by
    have := Rat.num_pos.mpr hq
    omega
  exact if_neg hnum

/-- The numerator as a rational. -/
theorem cast_num_toNat : ((q.num.toNat : Nat) : Rat) = q.num := by
  exact_mod_cast congrArg (Int.cast (R := Rat)) (Int.toNat_of_nonneg (Rat.num_pos.mpr hq).le)

theorem num_eq_mul_den : ((q.num.toNat : Nat) : Rat) = q * q.den := by
  rw [cast_num_toNat hq, Rat.mul_den_eq_num]

/-- The exponent is the floor of the binary logarithm. -/
theorem renderExponent_spec : (2 : Rat) ^ renderExponent q ≤ q ∧ q < 2 ^ (renderExponent q + 1) := by
  have hden : (0 : Rat) < q.den := by exact_mod_cast q.den_pos
  have hnum : 0 < q.num.toNat := by
    have := Rat.num_pos.mpr hq
    omega
  obtain ⟨hlow, hhigh⟩ := floorLog2_spec hnum q.den_pos
  rw [num_eq_mul_den hq, mul_comm] at hlow hhigh
  exact ⟨le_of_mul_le_mul_right hlow hden, lt_of_mul_lt_mul_left hhigh hden.le⟩

/-- `renderNum / renderDen` counts the units in `q`. -/
theorem renderNum_mul_unit : (renderNum q : Rat) * renderUnit q = q * renderDen q := by
  have hscale := zpow_toNat (52 - renderExponent q)
  have hcancel : (2 : Rat) ^ (52 - renderExponent q) * renderUnit q = 1 := by
    rw [renderUnit, ← zpow_add₀ two_ne_zero]
    simp
  calc (renderNum q : Rat) * renderUnit q
      = q * q.den * 2 ^ (52 - renderExponent q).toNat * renderUnit q := by
        rw [renderNum, Nat.cast_mul, num_eq_mul_den hq, Nat.cast_pow, Nat.cast_ofNat]
    _ = q * (q.den * 2 ^ (-(52 - renderExponent q)).toNat) * (2 ^ (52 - renderExponent q) * renderUnit q) := by
        rw [← hscale]
        ring
    _ = q * renderDen q := by
        rw [hcancel, mul_one, renderDen, Nat.cast_mul, Nat.cast_pow, Nat.cast_ofNat]

/-- The distance of `j` units from `q`, in integers. -/
theorem distance_eq (j : Int) :
    |(j : Rat) * renderUnit q - q| =
      ((|j * renderDen q - renderNum q| : Int) : Rat) * (renderUnit q / renderDen q) := by
  have hden : (0 : Rat) < renderDen q := by exact_mod_cast renderDen_pos q
  have hunit := renderUnit_pos q
  have hq' : q = renderNum q * renderUnit q / renderDen q := by
    rw [renderNum_mul_unit hq, mul_div_cancel_right₀ _ hden.ne']
  have hdiff : (j : Rat) * renderUnit q - q =
      ((j * renderDen q - renderNum q : Int) : Rat) * (renderUnit q / renderDen q) := by
    push_cast
    rw [sub_mul, mul_div_assoc', mul_div_assoc', ← hq']
    field_simp
  rw [hdiff, abs_mul, abs_of_pos (div_pos hunit hden), Int.cast_abs]

/-- No integer number of units is nearer to `q` than the significand. -/
theorem renderSignificand_nearest (j : Int) :
    |(renderSignificand q : Rat) * renderUnit q - q| ≤ |(j : Rat) * renderUnit q - q| := by
  have hden : (0 : Rat) < renderDen q := by exact_mod_cast renderDen_pos q
  have hscale : 0 ≤ renderUnit q / renderDen q := (div_pos (renderUnit_pos q) hden).le
  have hround := roundHalfEven_nearest (renderNum q) (renderDen_pos q) j
  have hleft := distance_eq hq (renderSignificand q)
  rw [Int.cast_natCast] at hleft
  rw [hleft, distance_eq hq j]
  exact mul_le_mul_of_nonneg_right (by exact_mod_cast hround) hscale

/-- Where another integer number of units is as near, the significand is even. -/
theorem renderSignificand_even {j : Int}
    (h : |(renderSignificand q : Rat) * renderUnit q - q| = |(j : Rat) * renderUnit q - q|)
    (hj : j ≠ renderSignificand q) : renderSignificand q % 2 = 0 := by
  have hden : (0 : Rat) < renderDen q := by exact_mod_cast renderDen_pos q
  have hscale : renderUnit q / renderDen q ≠ 0 := (div_pos (renderUnit_pos q) hden).ne'
  have hleft := distance_eq hq (renderSignificand q)
  rw [Int.cast_natCast] at hleft
  rw [hleft, distance_eq hq j] at h
  exact roundHalfEven_even _ (renderDen_pos q) (by exact_mod_cast mul_right_cancel₀ hscale h) hj

end positive

/-- Rounding moves to one of the two integers around the quotient. -/
theorem roundHalfEven_mem (n d : Nat) : n / d ≤ roundHalfEven n d ∧ roundHalfEven n d ≤ n / d + 1 := by
  have hparity : n / d % 2 < 2 := Nat.mod_lt _ two_pos
  unfold roundHalfEven
  split_ifs <;> omega

/-- The significand has 53 bits, or is `2^53` after rounding up. -/
theorem renderSignificand_range {q : Rat} (hq : 0 < q) :
    2 ^ 52 ≤ renderSignificand q ∧ renderSignificand q ≤ 2 ^ 53 := by
  have hden : (0 : Rat) < renderDen q := by exact_mod_cast renderDen_pos q
  have hunit := renderUnit_pos q
  have hpow := two_pow_mul_renderUnit q
  have hcount := renderNum_mul_unit hq
  obtain ⟨hlow, hhigh⟩ := renderExponent_spec hq
  rw [zpow_add_one₀ two_ne_zero] at hhigh
  rw [← hpow] at hlow hhigh
  have hnumLow : 2 ^ 52 * renderDen q ≤ renderNum q := by
    have h : (2 : Rat) ^ 52 * renderDen q ≤ renderNum q := by
      refine le_of_mul_le_mul_right ?_ hunit
      rw [hcount, mul_right_comm]
      exact mul_le_mul_of_nonneg_right hlow hden.le
    exact_mod_cast h
  have hnumHigh : renderNum q < 2 ^ 53 * renderDen q := by
    have h : (renderNum q : Rat) < 2 ^ 53 * renderDen q := by
      refine lt_of_mul_lt_mul_right ?_ hunit.le
      rw [hcount]
      exact lt_of_lt_of_eq (mul_lt_mul_of_pos_right hhigh hden) (by ring)
    exact_mod_cast h
  obtain ⟨hfloor, hceil⟩ := roundHalfEven_mem (renderNum q) (renderDen q)
  have hquotLow := (Nat.le_div_iff_mul_le (renderDen_pos q)).mpr hnumLow
  have hquotHigh := (Nat.div_lt_iff_lt_mul (renderDen_pos q)).mpr hnumHigh
  unfold renderSignificand
  omega

/-! ### The value of a pattern -/

/-- A pattern with biased exponent `c + 1` and significand `m`; at `m = 2^53` the addition carries into the exponent. -/
theorem binary64Value_pattern {c m : Nat} (hc : c + 2 < 2047) (hlow : 2 ^ 52 ≤ m) (hhigh : m ≤ 2 ^ 53) :
    binary64Value (BitVec.ofNat 64 (c * 2 ^ 52 + m)) = some ((m : Rat) * 2 ^ ((c : Int) - 1074)) := by
  have hfits : c * 2 ^ 52 + m < 2 ^ 64 := by omega
  rcases Nat.lt_or_ge m (2 ^ 53) with hm | hm
  · have hexp : (c * 2 ^ 52 + m) / 2 ^ 52 = c + 1 := by omega
    have hfrac : 2 ^ 52 + (c * 2 ^ 52 + m) % 2 ^ 52 = m := by omega
    have hz : ((c + 1 : Nat) : Int) - 1075 = c - 1074 := by omega
    simp only [binary64Value, BitVec.toNat_ofNat, Nat.mod_eq_of_lt hfits, hexp, hfrac, hz]
    rw [if_neg (by omega), if_neg (by omega)]
  · have hexp : (c * 2 ^ 52 + m) / 2 ^ 52 = c + 2 := by omega
    have hfrac : 2 ^ 52 + (c * 2 ^ 52 + m) % 2 ^ 52 = 2 ^ 52 := by omega
    have hz : ((c + 2 : Nat) : Int) - 1075 = c - 1074 + 1 := by omega
    have hcarry : (m : Rat) = 2 ^ 52 * 2 := by exact_mod_cast (by omega : m = 2 ^ 52 * 2)
    simp only [binary64Value, BitVec.toNat_ofNat, Nat.mod_eq_of_lt hfits, hexp, hfrac, hz]
    rw [if_neg (by omega), if_neg (by omega), zpow_add_one₀ two_ne_zero, hcarry]
    push_cast
    congr 1
    ring

/-- Every finite binary64 number that is not negative is a significand of 53 bits times a power of two. -/
theorem binary64Value_form {w : BitVec 64} {x : Rat} (h : binary64Value w = some x) :
    ∃ (m : Nat) (z : Int), m < 2 ^ 53 ∧ x = (m : Rat) * 2 ^ z := by
  have hfrac : w.toNat % 2 ^ 52 < 2 ^ 52 := Nat.mod_lt _ (Nat.two_pow_pos _)
  simp only [binary64Value] at h
  split_ifs at h
  · refine ⟨w.toNat % 2 ^ 52, -1074, by omega, ?_⟩
    rw [← Option.some.inj h, Rat.mkRat_eq_div, zpow_neg, div_eq_mul_inv]
    norm_cast
  · exact ⟨2 ^ 52 + w.toNat % 2 ^ 52, _, by omega, (Option.some.inj h).symm⟩

/-- Against the units of `q`: a finite number is an integer number of them, or below the power of two at the exponent. -/
theorem binary64Value_units {w : BitVec 64} {x : Rat} (h : binary64Value w = some x) (q : Rat) :
    (∃ j : Int, x = j * renderUnit q) ∨ x < 2 ^ renderExponent q := by
  obtain ⟨m, z, hm, rfl⟩ := binary64Value_form h
  rcases le_or_gt (renderExponent q - 52) z with hz | hz
  · obtain ⟨k, hk⟩ := Int.eq_ofNat_of_zero_le (sub_nonneg.mpr hz)
    have hzk : z = (k : Int) + (renderExponent q - 52) := by rw [← hk, sub_add_cancel]
    refine .inl ⟨m * 2 ^ k, ?_⟩
    rw [hzk, zpow_add₀ two_ne_zero, zpow_natCast, renderUnit]
    push_cast
    ring
  · right
    have hm' : (m : Rat) < 2 ^ (53 : Int) := by exact_mod_cast hm
    calc (m : Rat) * 2 ^ z < 2 ^ (53 : Int) * 2 ^ z := mul_lt_mul_of_pos_right hm' (by positivity)
      _ = 2 ^ (53 + z) := (zpow_add₀ two_ne_zero _ _).symm
      _ ≤ 2 ^ renderExponent q := zpow_le_zpow_right₀ one_le_two (by omega)

/-! ### The rendering is nearest -/

/-- `w` shows a finite number, none is nearer to `q`, and where another is as near `w` is even. -/
def IsNearestBinary64 (q : Rat) (w : BitVec 64) : Prop :=
  ∃ v : Rat, binary64Value w = some v ∧
    ∀ (w' : BitVec 64) (x : Rat), binary64Value w' = some x →
      |v - q| ≤ |x - q| ∧ (|v - q| = |x - q| → x ≠ v → w.toNat % 2 = 0)

theorem isNearestBinary64_zero : IsNearestBinary64 0 (renderBinary64 0) := by
  refine ⟨0, by decide +kernel, fun w' x _ => ⟨?_, fun _ _ => rfl⟩⟩
  rw [sub_zero, abs_zero]
  exact abs_nonneg _

/-- In the range of the normal numbers: a competitor that is an integer number of units is judged by `roundHalfEven`, one
below `2^renderExponent` is further away than that power of two. -/
theorem isNearestBinary64_normal {q : Rat} (hlow : (2 : Rat) ^ (-1022 : Int) ≤ q) (hhigh : q < 2 ^ (1023 : Int)) :
    IsNearestBinary64 q (renderBinary64 q) := by
  have hq : 0 < q := lt_of_lt_of_le (by positivity) hlow
  obtain ⟨hexpLow, hexpHigh⟩ := renderExponent_spec hq
  obtain ⟨hsigLow, hsigHigh⟩ := renderSignificand_range hq
  have hmin : -1022 < renderExponent q + 1 :=
    (zpow_lt_zpow_iff_right₀ one_lt_two).mp (lt_of_le_of_lt hlow hexpHigh)
  have hmax : renderExponent q < 1023 := (zpow_lt_zpow_iff_right₀ one_lt_two).mp (lt_of_le_of_lt hexpLow hhigh)
  obtain ⟨c, hc⟩ := Int.eq_ofNat_of_zero_le (a := renderExponent q + 1022) (by omega)
  have hpattern : renderBinary64 q = BitVec.ofNat 64 (c * 2 ^ 52 + renderSignificand q) := by
    rw [renderBinary64_of_pos hq, hc, Int.toNat_natCast]
  have hvalue : binary64Value (renderBinary64 q) = some ((renderSignificand q : Rat) * renderUnit q) := by
    rw [hpattern, binary64Value_pattern (by omega) hsigLow hsigHigh, renderUnit,
      show (c : Int) - 1074 = renderExponent q - 52 by omega]
  refine ⟨_, hvalue, fun w' x hx => ?_⟩
  rcases binary64Value_units hx q with ⟨j, rfl⟩ | hbelow
  · refine ⟨renderSignificand_nearest hq j, fun htie hne => ?_⟩
    have hj : j ≠ renderSignificand q := fun hj => hne (by rw [hj, Int.cast_natCast])
    have heven := renderSignificand_even hq htie hj
    rw [hpattern, BitVec.toNat_ofNat]
    omega
  · have hpower := renderSignificand_nearest hq (2 ^ 52)
    rw [Int.cast_pow, Int.cast_ofNat, two_pow_mul_renderUnit, abs_of_nonpos (sub_nonpos.mpr hexpLow)] at hpower
    have hfar : q - x ≤ |x - q| := by rw [abs_sub_comm]; exact le_abs_self _
    exact ⟨by linarith, fun htie _ => by linarith⟩

/-! ### The ratio of two counts -/

/-- A ratio of two statistics registers that is not 0 is at least `2^(-1022)`. -/
theorem ratioOf_normal {miss total : BitVec Config.statW} (h : ratioOf miss.toNat total.toNat ≠ 0) :
    (2 : Rat) ^ (-1022 : Int) ≤ ratioOf miss.toNat total.toNat := by
  have htotal : total.toNat ≠ 0 := fun hzero => h (by rw [hzero, ratioOf_no_events])
  have hmiss : 0 < miss.toNat := by
    refine Nat.pos_of_ne_zero fun hzero => h ?_
    rw [ratioOf_eq_div htotal, hzero]
    simp
  have hpos : (0 : Rat) < total.toNat := by exact_mod_cast Nat.pos_of_ne_zero htotal
  have hone : (1 : Rat) ≤ miss.toNat := by exact_mod_cast hmiss
  have hbound : (total.toNat : Rat) ≤ 2 ^ (64 : Int) := by exact_mod_cast total.isLt.le
  rw [ratioOf_eq_div htotal, le_div_iff₀ hpos]
  calc (2 : Rat) ^ (-1022 : Int) * total.toNat
      ≤ 2 ^ (-64 : Int) * 2 ^ (64 : Int) :=
        mul_le_mul (zpow_le_zpow_right₀ one_le_two (by norm_num)) hbound hpos.le (by positivity)
    _ = 1 := by norm_num
    _ ≤ 100 * miss.toNat := by linarith

/-- Settles O28: the ratio is 0, or between `2^(-1022)` and 100, where the rendering is nearest. -/
theorem renderedRatioIsNearestBinary64 : Obligations.RenderedRatioIsNearestBinary64 := by
  unfold Obligations.RenderedRatioIsNearestBinary64
  intro s t p r hs hp h hr
  obtain rfl := Host.Outcome.next.inj ((execRatio_ready hs).symm.trans h)
  obtain rfl := Option.some.inj hr
  by_cases hzero : ratioOf p.missCount.toNat p.totalCount.toNat = 0
  · simp only [ratioOutOf, hzero]
    exact isNearestBinary64_zero
  · have hle := ratioOf_le hp.statistics
    have htop : (100 : Rat) < 2 ^ (1023 : Int) :=
      lt_of_lt_of_le (by norm_num : (100 : Rat) < 2 ^ (7 : Int)) (zpow_le_zpow_right₀ one_le_two (by norm_num))
    exact isNearestBinary64_normal (ratioOf_normal hzero) (lt_of_le_of_lt hle htop)

end Sys2Proof.Machine
end
